-- ==== Sys2Proof/Word.lean ====
section
/-! DEFINITION. The widths of the block's values (00_scope.md R3: SEQ_W = 16, GID_W = 8, TYPE_W = 5, fixed by the
wire format) and the plain type of its maps. -/

namespace Sys2Proof

/-- A byte, 0 to 255; bit 7 is the most significant bit (20_memory.md R43, log 10). -/
abbrev Byte := BitVec 8

/-- A byte string: length and bytes in order (00_scope.md section 5.1). -/
abbrev Bytes := List Byte

/-- A sequence number; arithmetic on it is modulo 65536 (00_scope.md R3, SEQ_W). -/
abbrev SeqNum := BitVec 16

/-- A group identifier (00_scope.md R3, GID_W). -/
abbrev GroupId := BitVec 8

/-- A coding-unit type, or a redundancy-set size (00_scope.md R3, TYPE_W; 30_encoding.md R67). -/
abbrev UnitType := BitVec 5

/-- The finite maps of 10_state.md (GRP, Group.media, FB): key and value pairs, keys strictly rising (Machine/Ops.lean
`mapWf`), so that equal maps are equal data. -/
abbrev Map (w : Nat) (α : Type) := List (BitVec w × α)

end Sys2Proof
end

