-- ==== Sys2Proof/Config.lean ====
section
/-! DEFINITION. The implementation parameters of 00_scope.md R3. The four fixed by the wire format are constants; the
tunable ones are a record whose value a build fixes and no operation writes (10_state.md R32, last row; log 7). -/

namespace Sys2Proof

/-- EVICT_ORDER of 00_scope.md R3: which group 41_fec.md R122 evicts (92_eei_decisions.md D9). -/
inductive EvictOrder where
  /-- the lowest groupId -/
  | numeric
  /-- the earliest created group -/
  | creation
  deriving DecidableEq, Repr

/-- The tunable parameters of 00_scope.md R3. -/
structure Config where
  /-- FEC_GROUP_SIZE: expectedCount of a group that has seen no redundancy packet (10_state.md R16). -/
  fecGroupSize : UnitType
  /-- MAX_GROUPS: ceiling on tracked groups (41_fec.md R122). -/
  maxGroups    : Nat
  /-- EVICT_ORDER (41_fec.md R122). -/
  evictOrder   : EvictOrder
  /-- MAX_PAYLOAD: largest payload the input port may present (30_encoding.md R78). -/
  maxPayload   : Nat
  /-- FRAG_BUF_CAP: most bytes one fragment buffer holds (42_reassembler.md R166). -/
  fragBufCap   : Nat
  /-- DEDUP_CAP: capacity of the dedup window (42_reassembler.md R154). -/
  dedupCap     : Nat
  /-- COUNTER_W: width of the three counters (10_state.md R27). -/
  counterW     : Nat
  deriving DecidableEq, Repr

namespace Config

/-- SEQ_W, SEQ_MOD, GID_W, TYPE_W, HDR_LEN of 00_scope.md R3: fixed, not tunable. -/
abbrev seqW : Nat := 16
abbrev seqMod : Nat := 65536
abbrev gidW : Nat := 8
abbrev typeW : Nat := 5
abbrev hdrLen : Nat := 4

/-- MAX_DGRAM = HDR_LEN + MAX_PAYLOAD (00_scope.md R3). -/
def maxDgram (c : Config) : Nat := hdrLen + c.maxPayload

/-- The largest value of a counter (10_state.md R27). -/
def counterMax (c : Config) : Nat := 2 ^ c.counterW - 1

/-- The default column of the table of 00_scope.md R3. -/
def default : Config where
  fecGroupSize := 4
  maxGroups    := 4
  evictOrder   := .numeric
  maxPayload   := 1400
  fragBufCap   := 204800
  dedupCap     := 50
  counterW     := 64

/-- A build the spec allows: FEC_GROUP_SIZE lies in 1 to 31 and MAX_PAYLOAD <= FRAG_BUF_CAP (00_scope.md R3); a dedup
window holds at least one number (DEDUCED from 42_reassembler.md R155, log 8). -/
abbrev valid (c : Config) : Prop :=
  c.fecGroupSize ≠ 0 ∧ c.maxPayload ≤ c.fragBufCap ∧ 1 ≤ c.dedupCap

end Config

end Sys2Proof
end

