-- ==== Sys2Proof/Syntax.lean ====
section
/-! DEFINITION. The syntax of the block: the parsed packet (30_encoding.md R61), the frames presented on the command
port, and one constructor of `Instr` per row of spec/opcode_table.json. -/

namespace Sys2Proof

/-- The parsed form of a datagram, an immutable value of seven fields (30_encoding.md R61). -/
structure Packet where
  sequenceNumber : SeqNum
  isFec          : Bool
  isStart        : Bool
  isEnd          : Bool
  /-- coding-unit type when media, redundancy-set size when FEC (30_encoding.md R67) -/
  typeOrCount    : UnitType
  groupId        : GroupId
  payload        : Bytes
  deriving DecidableEq, Repr

/-- The selectors of RD_STAT that are not reserved (30_encoding.md R74). -/
inductive Selector where
  | recoveredCount
  | unitsReassembled
  | packetsDeduplicated
  deriving DecidableEq, Repr

/-- What is presented on the command port, whole and with its length (43_pipeline.md R200): either a datagram, `RX`
being implied for it (30_encoding.md R76, log 2), or the bytes of a command, its code first and its operands after it
(30_encoding.md R73, log 3). -/
inductive Frame where
  | datagram (bytes : Bytes)
  | command (bytes : Bytes)
  deriving DecidableEq, Repr

/-- The instructions: the five datagram classes of 30_encoding.md R66 and the twelve commands of R73. -/
inductive Instr where
  /-- DG.FEC (43_pipeline.md R204). isStart and isEnd are any value, kept and never read (30_encoding.md R68). -/
  | dgFec (seq : SeqNum) (isStart isEnd : Bool) (count : UnitType) (gid : GroupId) (payload : Bytes)
  /-- DG.SINGLE (43_pipeline.md R205). -/
  | dgSingle (seq : SeqNum) (type : UnitType) (gid : GroupId) (payload : Bytes)
  /-- DG.START (43_pipeline.md R206). -/
  | dgStart (seq : SeqNum) (type : UnitType) (gid : GroupId) (payload : Bytes)
  /-- DG.MID (43_pipeline.md R207). -/
  | dgMid (seq : SeqNum) (type : UnitType) (gid : GroupId) (payload : Bytes)
  /-- DG.END (43_pipeline.md R208). -/
  | dgEnd (seq : SeqNum) (type : UnitType) (gid : GroupId) (payload : Bytes)
  /-- RX (43_pipeline.md R200), code 0x01. -/
  | rx (dg : Bytes)
  /-- RESET (43_pipeline.md R209), code 0x02. -/
  | reset
  /-- RD_STAT (43_pipeline.md R210), code 0x03. -/
  | rdStat (sel : Selector)
  /-- PARSE (40_codec.md R90), code 0x10. -/
  | parse (dg : Bytes)
  /-- SERIALIZE (40_codec.md R92), code 0x11. -/
  | serialize (p : Packet)
  /-- FEC.PROCESS (41_fec.md R110), code 0x20. -/
  | fecProcess (p : Packet)
  /-- FEC.GETRC (41_fec.md R125), code 0x21. -/
  | fecGetRc
  /-- FEC.RESET (41_fec.md R126), code 0x22. -/
  | fecReset
  /-- RSM.PROCESS (42_reassembler.md R150), code 0x30. -/
  | rsmProcess (p : Packet)
  /-- RSM.GETUNITS (42_reassembler.md R178), code 0x31. -/
  | rsmGetUnits
  /-- RSM.GETDEDUP (42_reassembler.md R179), code 0x32. -/
  | rsmGetDedup
  /-- RSM.RESET (42_reassembler.md R180), code 0x33. -/
  | rsmReset
  deriving DecidableEq, Repr

end Sys2Proof
end

