-- ==== Sys2Proof/WellFormed.lean ====
section
/-! DEFINITION. Which instructions lie inside the input contract of a build (30_encoding.md R78, 40_codec.md R90, R92),
and which have operand bytes at all (the four-byte length field of log 3). -/

namespace Sys2Proof

namespace Instr

/-- The operand contract of the build `c`. A datagram, given whole or by class, has at most MAX_DGRAM bytes
(30_encoding.md R78); a packet to serialize has at most MAX_PAYLOAD payload bytes (40_codec.md R92). FEC.PROCESS and
RSM.PROCESS take any packet (41_fec.md R110, 42_reassembler.md R150). -/
def wf (c : Config) : Instr → Bool
  | .dgFec _ _ _ _ _ payload => decide (payload.length ≤ c.maxPayload)
  | .dgSingle _ _ _ payload  => decide (payload.length ≤ c.maxPayload)
  | .dgStart _ _ _ payload   => decide (payload.length ≤ c.maxPayload)
  | .dgMid _ _ _ payload     => decide (payload.length ≤ c.maxPayload)
  | .dgEnd _ _ _ payload     => decide (payload.length ≤ c.maxPayload)
  | .rx dg                   => decide (dg.length ≤ c.maxDgram)
  | .reset                   => true
  | .rdStat _                => true
  | .parse dg                => decide (dg.length ≤ c.maxDgram)
  | .serialize p             => decide (p.payload.length ≤ c.maxPayload)
  | .fecProcess _            => true
  | .fecGetRc                => true
  | .fecReset                => true
  | .rsmProcess _            => true
  | .rsmGetUnits             => true
  | .rsmGetDedup             => true
  | .rsmReset                => true

/-- The byte-string operand's length fits the four-byte length field of a command frame (log 3). The five datagram
classes carry no length field. -/
def encodable : Instr → Bool
  | .dgFec _ _ _ _ _ _ => true
  | .dgSingle _ _ _ _  => true
  | .dgStart _ _ _ _   => true
  | .dgMid _ _ _ _     => true
  | .dgEnd _ _ _ _     => true
  | .rx dg             => decide (dg.length < 2 ^ 32)
  | .reset             => true
  | .rdStat _          => true
  | .parse dg          => decide (dg.length < 2 ^ 32)
  | .serialize p       => decide (p.payload.length < 2 ^ 32)
  | .fecProcess p      => decide (p.payload.length < 2 ^ 32)
  | .fecGetRc          => true
  | .fecReset          => true
  | .rsmProcess p      => decide (p.payload.length < 2 ^ 32)
  | .rsmGetUnits       => true
  | .rsmGetDedup       => true
  | .rsmReset          => true

end Instr

end Sys2Proof
end

