-- ==== Sys2Proof/Decode.lean ====
section
/-! DEFINITION. Field extraction and assembly of a datagram (30_encoding.md R63, R64), its class (R66), the command
codes (R73), decoding of any frame with rejection by name, and the encoder written from the same tables. -/

namespace Sys2Proof

/-! ## The datagram space (20_memory.md R41) -/

/-- `MemRead(a, 1)`: defined only when `a + 1 <= len(DG)`. -/
def memRead1 (dg : Bytes) (a : Nat) : Option Byte := dg[a]?

/-- `MemRead(a, 2)`: big-endian, the byte at the lower offset is the more significant (20_memory.md R42). -/
def memRead2 (dg : Bytes) (a : Nat) : Option SeqNum :=
  match dg[a]?, dg[a + 1]? with
  | some hi, some lo => some (hi ++ lo)
  | _, _ => none

/-- `MemWrite(a, 1, v)`. -/
def memWrite1 (out : Bytes) (a : Nat) (v : Byte) : Bytes := out.set a v

/-- `MemWrite(a, 2, v)`: the high byte at `a`, the low byte at `a + 1`. -/
def memWrite2 (out : Bytes) (a : Nat) (v : SeqNum) : Bytes :=
  (out.set a (v.extractLsb' 8 8)).set (a + 1) (v.extractLsb' 0 8)

/-! ## PacketCodec (40_codec.md) -/

/-- `flags[4:0]` of 30_encoding.md R63; also the type embedded in a unit's first byte (42_reassembler.md R175). -/
def lowFive (b : Byte) : UnitType := b.extractLsb' 0 5

/-- The flags byte of 30_encoding.md R64. -/
def flagsByte (isFec isStart isEnd : Bool) (typeOrCount : UnitType) : Byte :=
  BitVec.ofBool isFec ++ BitVec.ofBool isStart ++ BitVec.ofBool isEnd ++ typeOrCount

/-- PARSE (40_codec.md R90, R91); `none` is MalformedPacket, which depends on the length alone. -/
def parse (dg : Bytes) : Option Packet :=
  if dg.length < Config.hdrLen then none
  else
    match memRead2 dg 0, memRead1 dg 2, memRead1 dg 3 with
    | some seq, some flags, some gid =>
      some { sequenceNumber := seq
             isFec := flags.getLsbD 7
             isStart := flags.getLsbD 6
             isEnd := flags.getLsbD 5
             typeOrCount := lowFive flags
             groupId := gid
             payload := dg.drop Config.hdrLen }
    | _, _, _ => none

/-- The four header bytes of SERIALIZE (40_codec.md R92, 30_encoding.md R64). -/
def header (p : Packet) : Bytes :=
  let out := List.replicate Config.hdrLen 0
  let out := memWrite2 out 0 p.sequenceNumber
  let out := memWrite1 out 2 (flagsByte p.isFec p.isStart p.isEnd p.typeOrCount)
  memWrite1 out 3 p.groupId

/-- SERIALIZE (40_codec.md R92): the exact inverse of PARSE. -/
def serialize (p : Packet) : Bytes := header p ++ p.payload

/-! ## The five classes (30_encoding.md R62, R66) -/

/-- The class of a packet, by bits 7 to 5 of its flags byte alone (30_encoding.md R66). -/
def classify (p : Packet) : Instr :=
  match p.isFec, p.isStart, p.isEnd with
  | true, a, e => .dgFec p.sequenceNumber a e p.typeOrCount p.groupId p.payload
  | false, true, true => .dgSingle p.sequenceNumber p.typeOrCount p.groupId p.payload
  | false, true, false => .dgStart p.sequenceNumber p.typeOrCount p.groupId p.payload
  | false, false, false => .dgMid p.sequenceNumber p.typeOrCount p.groupId p.payload
  | false, false, true => .dgEnd p.sequenceNumber p.typeOrCount p.groupId p.payload

/-- The packet an instruction of the five classes stands for; the commands have none. -/
def packetOfClass : Instr → Option Packet
  | .dgFec seq a e n gid payload => some ⟨seq, true, a, e, n, gid, payload⟩
  | .dgSingle seq t gid payload => some ⟨seq, false, true, true, t, gid, payload⟩
  | .dgStart seq t gid payload => some ⟨seq, false, true, false, t, gid, payload⟩
  | .dgMid seq t gid payload => some ⟨seq, false, false, false, t, gid, payload⟩
  | .dgEnd seq t gid payload => some ⟨seq, false, false, true, t, gid, payload⟩
  | .rx _ => none
  | .reset => none
  | .rdStat _ => none
  | .parse _ => none
  | .serialize _ => none
  | .fecProcess _ => none
  | .fecGetRc => none
  | .fecReset => none
  | .rsmProcess _ => none
  | .rsmGetUnits => none
  | .rsmGetDedup => none
  | .rsmReset => none

/-- One datagram row of spec/opcode_table.json: its mask and match on the header word `H` (30_encoding.md R62). -/
structure ClassRow where
  mnemonic : String
  mask     : BitVec 32
  value    : BitVec 32
  deriving DecidableEq, Repr

/-- The table of 30_encoding.md R66. -/
def classRows : List ClassRow :=
  [ ⟨"DG.FEC",    0x00008000, 0x00008000⟩,
    ⟨"DG.SINGLE", 0x0000E000, 0x00006000⟩,
    ⟨"DG.START",  0x0000E000, 0x00004000⟩,
    ⟨"DG.MID",    0x0000E000, 0x00000000⟩,
    ⟨"DG.END",    0x0000E000, 0x00002000⟩ ]

/-- The header word falls in the row. -/
def ClassRow.covers (r : ClassRow) (h : BitVec 32) : Bool := (h &&& r.mask) == r.value

/-- The header word `H` as four bytes, byte 0 most significant (30_encoding.md R62). -/
def headerWordBytes (h : BitVec 32) : Bytes :=
  [h.extractLsb' 24 8, h.extractLsb' 16 8, h.extractLsb' 8 8, h.extractLsb' 0 8]

/-! ## Command codes (30_encoding.md R73) -/

/-- The twelve commands without their operands. -/
inductive Opcode where
  | rx | reset | rdStat | parse | serialize | fecProcess | fecGetRc | fecReset
  | rsmProcess | rsmGetUnits | rsmGetDedup | rsmReset
  deriving DecidableEq, Repr

/-- The code column of the table of 30_encoding.md R73. -/
def Opcode.code : Opcode → Byte
  | .rx => 0x01
  | .reset => 0x02
  | .rdStat => 0x03
  | .parse => 0x10
  | .serialize => 0x11
  | .fecProcess => 0x20
  | .fecGetRc => 0x21
  | .fecReset => 0x22
  | .rsmProcess => 0x30
  | .rsmGetUnits => 0x31
  | .rsmGetDedup => 0x32
  | .rsmReset => 0x33

/-- The rows of the table of 30_encoding.md R73. -/
def Opcode.all : List Opcode :=
  [.rx, .reset, .rdStat, .parse, .serialize, .fecProcess, .fecGetRc, .fecReset,
   .rsmProcess, .rsmGetUnits, .rsmGetDedup, .rsmReset]

/-- The command of a code; every code outside the table is reserved. -/
def Opcode.ofCode (b : Byte) : Option Opcode := Opcode.all.find? (fun o => o.code == b)

/-- The selector byte of RD_STAT (30_encoding.md R74). -/
def Selector.code : Selector → Byte
  | .recoveredCount => 0
  | .unitsReassembled => 1
  | .packetsDeduplicated => 2

/-- The selector of a byte; every other value is reserved (30_encoding.md R74). -/
def Selector.ofCode (b : Byte) : Option Selector :=
  [Selector.recoveredCount, .unitsReassembled, .packetsDeduplicated].find? (fun s => s.code == b)

/-! ## Decoding frames -/

/-- Why a frame has no instruction. -/
inductive DecodeError where
  /-- a command frame without a code byte (log 4) -/
  | emptyCommand
  /-- a reserved command code (30_encoding.md R73) -/
  | reservedCode (code : Byte)
  /-- a reserved RD_STAT selector (30_encoding.md R74) -/
  | reservedSelector (sel : Byte)
  /-- operand bytes missing (log 4) -/
  | truncatedOperands
  /-- bytes after the last operand (log 4) -/
  | trailingOperands
  deriving DecidableEq, Repr

/-- The four bytes of a length, big-endian (log 3). -/
def lengthBytes (n : Nat) : Bytes := headerWordBytes (BitVec.ofNat 32 n)

/-- Read a four-byte length and the byte string of that length (log 3). -/
def readBytes : Bytes → Except DecodeError (Bytes × Bytes)
  | a :: b :: c :: d :: rest =>
    let n := (a ++ b ++ c ++ d : BitVec 32).toNat
    if rest.length < n then .error .truncatedOperands else .ok (rest.take n, rest.drop n)
  | _ => .error .truncatedOperands

/-- Read a packet operand: its four header bytes (30_encoding.md R63), then its payload as `readBytes` (log 3). -/
def readPacket : Bytes → Except DecodeError (Packet × Bytes)
  | a :: b :: c :: d :: rest =>
    match readBytes rest, parse [a, b, c, d] with
    | .ok (payload, rest'), some h => .ok ({ h with payload := payload }, rest')
    | .ok _, none => .error .truncatedOperands
    | .error e, _ => .error e
  | _ => .error .truncatedOperands

/-- Nothing may follow the last operand of a command frame (log 4). -/
def finishOperands (i : Instr) : Bytes → Except DecodeError Instr
  | [] => .ok i
  | _ :: _ => .error .trailingOperands

/-- A command whose operand is a datagram. -/
def withDatagram (mk : Bytes → Instr) (ops : Bytes) : Except DecodeError Instr :=
  match readBytes ops with
  | .ok (dg, rest) => finishOperands (mk dg) rest
  | .error e => .error e

/-- A command whose operand is a packet. -/
def withPacket (mk : Packet → Instr) (ops : Bytes) : Except DecodeError Instr :=
  match readPacket ops with
  | .ok (p, rest) => finishOperands (mk p) rest
  | .error e => .error e

/-- The operands of one command (the operands column of 30_encoding.md R73). -/
def decodeOperands : Opcode → Bytes → Except DecodeError Instr
  | .rx, ops => withDatagram .rx ops
  | .reset, ops => finishOperands .reset ops
  | .rdStat, [] => .error .truncatedOperands
  | .rdStat, sel :: rest =>
    match Selector.ofCode sel with
    | some s => finishOperands (.rdStat s) rest
    | none => .error (.reservedSelector sel)
  | .parse, ops => withDatagram .parse ops
  | .serialize, ops => withPacket .serialize ops
  | .fecProcess, ops => withPacket .fecProcess ops
  | .fecGetRc, ops => finishOperands .fecGetRc ops
  | .fecReset, ops => finishOperands .fecReset ops
  | .rsmProcess, ops => withPacket .rsmProcess ops
  | .rsmGetUnits, ops => finishOperands .rsmGetUnits ops
  | .rsmGetDedup, ops => finishOperands .rsmGetDedup ops
  | .rsmReset, ops => finishOperands .rsmReset ops

/-- A command frame: its code, then its operands (30_encoding.md R73). -/
def decodeCommand : Bytes → Except DecodeError Instr
  | [] => .error .emptyCommand
  | code :: ops =>
    match Opcode.ofCode code with
    | some o => decodeOperands o ops
    | none => .error (.reservedCode code)

/-- A datagram frame: its class, or, shorter than a header, the RX of a datagram that has no class
(30_encoding.md R66, R69). -/
def decodeDatagram (dg : Bytes) : Instr :=
  match parse dg with
  | some p => classify p
  | none => .rx dg

/-- The instruction of a frame, or the name of what is wrong with it. -/
def decode : Frame → Except DecodeError Instr
  | .datagram dg => .ok (decodeDatagram dg)
  | .command bytes => decodeCommand bytes

/-! ## Encoding -/

/-- A byte-string operand (log 3). -/
def datagramOperand (dg : Bytes) : Bytes := lengthBytes dg.length ++ dg

/-- A packet operand (log 3). -/
def packetOperand (p : Packet) : Bytes := header p ++ datagramOperand p.payload

/-- The frame of an instruction, from the tables of 30_encoding.md R64, R66, R73, R74. -/
def encode : Instr → Frame
  | .dgFec seq a e n gid payload => .datagram (serialize ⟨seq, true, a, e, n, gid, payload⟩)
  | .dgSingle seq t gid payload => .datagram (serialize ⟨seq, false, true, true, t, gid, payload⟩)
  | .dgStart seq t gid payload => .datagram (serialize ⟨seq, false, true, false, t, gid, payload⟩)
  | .dgMid seq t gid payload => .datagram (serialize ⟨seq, false, false, false, t, gid, payload⟩)
  | .dgEnd seq t gid payload => .datagram (serialize ⟨seq, false, false, true, t, gid, payload⟩)
  | .rx dg => .command (Opcode.rx.code :: datagramOperand dg)
  | .reset => .command [Opcode.reset.code]
  | .rdStat sel => .command [Opcode.rdStat.code, sel.code]
  | .parse dg => .command (Opcode.parse.code :: datagramOperand dg)
  | .serialize p => .command (Opcode.serialize.code :: packetOperand p)
  | .fecProcess p => .command (Opcode.fecProcess.code :: packetOperand p)
  | .fecGetRc => .command [Opcode.fecGetRc.code]
  | .fecReset => .command [Opcode.fecReset.code]
  | .rsmProcess p => .command (Opcode.rsmProcess.code :: packetOperand p)
  | .rsmGetUnits => .command [Opcode.rsmGetUnits.code]
  | .rsmGetDedup => .command [Opcode.rsmGetDedup.code]
  | .rsmReset => .command [Opcode.rsmReset.code]

/-! ## The words of spec/opcode_table.json -/

/-- How many operand bytes follow a code when every operand bit is zero: an empty datagram is its length field, an
empty packet its header and length field, a selector one byte (log 3). -/
def zeroOperandBytes (code : Byte) : Nat :=
  match Opcode.ofCode code with
  | some .rx => 4
  | some .parse => 4
  | some .serialize => 8
  | some .fecProcess => 8
  | some .rsmProcess => 8
  | some .rdStat => 1
  | some .reset => 0
  | some .fecGetRc => 0
  | some .fecReset => 0
  | some .rsmGetUnits => 0
  | some .rsmGetDedup => 0
  | some .rsmReset => 0
  | none => 0

/-- The frame of a table word: a row of one byte is a command code with operands of zeros, a row of 32 bits is the
header word of a datagram with an empty payload (30_encoding.md R62, R73). -/
def frameOfTableWord (nbits w : Nat) : Frame :=
  if nbits ≤ 8 then
    let code := BitVec.ofNat 8 w
    .command (code :: List.replicate (zeroOperandBytes code) 0)
  else .datagram (headerWordBytes (BitVec.ofNat 32 w))

/-- The instruction the decoder reads from a table word. -/
def decodeTableWord (nbits w : Nat) : Option Instr :=
  match decode (frameOfTableWord nbits w) with
  | .ok i => some i
  | .error _ => none

end Sys2Proof
end

