-- ==== Sys2Proof/Machine/State.lean ====
section
/-! DEFINITION. The state of one block instance as plain data (10_state.md R10), its reset value (R32), the outputs of
an operation, and the reasons a step can stop. -/

namespace Sys2Proof.Machine

/-! ## Outputs (10_state.md R30, R31) -/

/-- A coding unit, the value handed to the decode sink (30_encoding.md R72). -/
structure CodingUnit where
  type : UnitType
  data : Bytes
  deriving DecidableEq, Repr

/-- The position an orphan fragment had (`pos` of 60_exceptions.md R221). -/
inductive FragmentPos where
  /-- a middle fragment, written 0 -/
  | middle
  /-- an end fragment, written 1 -/
  | final
  deriving DecidableEq, Repr

/-- The complete set of events (60_exceptions.md R221). -/
inductive Event where
  /-- EV_MALFORMED: the length of the short datagram. -/
  | malformed (len : Nat)
  /-- EV_ORPHAN: sequence number, header type, position. -/
  | orphan (seq : SeqNum) (type : UnitType) (pos : FragmentPos)
  /-- EV_SEQ_GAP: the last-seen number and the observed one. -/
  | seqGap (last seq : SeqNum)
  /-- EV_TYPE_MISMATCH: header type and embedded type. -/
  | typeMismatch (hdr emb : UnitType)
  /-- EV_BUF_OVERFLOW: sequence number and header type. -/
  | bufOverflow (seq : SeqNum) (type : UnitType)
  deriving DecidableEq, Repr

/-- The value an operation returns (the result column of 30_encoding.md R73), its units and events apart. -/
inductive Result where
  /-- no returned value -/
  | nothing
  /-- a counter value (RD_STAT, FEC.GETRC, RSM.GETUNITS, RSM.GETDEDUP) -/
  | counter (value : Nat)
  /-- PARSE's packet -/
  | packet (p : Packet)
  /-- PARSE's MalformedPacket (40_codec.md R91) -/
  | malformedPacket
  /-- SERIALIZE's datagram -/
  | datagram (bytes : Bytes)
  /-- FEC.PROCESS's list of zero or one recovered packets -/
  | recovered (ps : List Packet)
  deriving DecidableEq, Repr

/-- What one operation puts on the output ports: coding units first, then events (60_exceptions.md R220), and the value
it returns. -/
structure Output where
  units  : List CodingUnit
  events : List Event
  result : Result
  deriving DecidableEq, Repr

/-- Nothing on any port. -/
def Output.empty : Output := ⟨[], [], .nothing⟩

/-! ## State (10_state.md R10) -/

/-- A redundancy group (10_state.md R12 to R17). -/
structure Group where
  /-- the media packets, each under its own sequence number (R14) -/
  media         : Map 16 Packet
  /-- the most recent redundancy packet (R15) -/
  fec           : Option Packet
  /-- the redundancy-set size (R16) -/
  expectedCount : UnitType
  /-- the hidden creation stamp (R17) -/
  birth         : Nat
  deriving DecidableEq, Repr

/-- FECEngine's state (10_state.md R12, R18, R20). -/
structure FecState where
  grp            : Map 8 Group
  recoveredCount : Nat
  birthCtr       : Nat
  deriving DecidableEq, Repr

/-- Reassembler's state (10_state.md R21 to R29). -/
structure RsmState where
  /-- open fragment buffers by header type (R21); an absent type is a closed buffer -/
  fb                  : Map 5 Bytes
  /-- the dedup window, oldest first (R23) -/
  dw                  : List SeqNum
  /-- the last-seen sequence number (R25) -/
  lastSeq             : Option SeqNum
  unitsReassembled    : Nat
  packetsDeduplicated : Nat
  deriving DecidableEq, Repr

/-- One block instance: the state of 10_state.md R10 (`fec`, `rsm`), the build's parameters (`cfg`, log 7), the frames
presented and not yet executed (`input`, log 1) and the output ports of the last operation (`out`, log 6). -/
structure State where
  cfg   : Config
  fec   : FecState
  rsm   : RsmState
  input : List Frame
  out   : Output
  deriving DecidableEq, Repr

/-- FECEngine after reset (10_state.md R32, 41_fec.md R126). -/
def FecState.reset : FecState := { grp := [], recoveredCount := 0, birthCtr := 0 }

/-- Reassembler after reset (10_state.md R32, 42_reassembler.md R180). -/
def RsmState.reset : RsmState :=
  { fb := [], dw := [], lastSeq := none, unitsReassembled := 0, packetsDeduplicated := 0 }

/-- The block right after power-on (70_reset_and_hazards.md R261, R262), built with the default parameters of
00_scope.md R3, nothing presented and nothing on the output ports (log 11). -/
def State.reset : State :=
  { cfg := Config.default, fec := .reset, rsm := .reset, input := [], out := .empty }

/-! ## Stops -/

/-- No behaviour of the block is a fault or a stuck state: it has no trap to fault into (93_implementation_defined.md
section 1, last sentence; 60_exceptions.md R220). So there is no constructor, and no step can fault. -/
inductive Fault where
  deriving DecidableEq, Repr

/-- Inputs outside the interface contract, to which the spec gives no meaning (60_exceptions.md R228). Each stop is
safe: no claim about what the block would do follows from it. -/
inductive Refusal where
  /-- raised by `exec` for an instruction without a meaning in this model; safe -/
  | notModelled (mnemonic : String)
  /-- raised by `step` for a command code outside the table (30_encoding.md R73); safe -/
  | reservedCommand (code : Byte)
  /-- raised by `step` for an RD_STAT selector other than 0, 1, 2 (30_encoding.md R74); safe -/
  | reservedSelector (sel : Byte)
  /-- raised by RX, PARSE and the five datagram classes for a datagram over MAX_DGRAM (30_encoding.md R78); safe -/
  | oversizeDatagram (len : Nat)
  /-- raised by SERIALIZE for a payload over MAX_PAYLOAD, outside its operands (40_codec.md R92, log 9); safe -/
  | oversizePayload (len : Nat)
  /-- raised by `step` for a command frame without a code, cut short or too long (log 4); safe -/
  | malformedFrame
  deriving DecidableEq, Repr

end Sys2Proof.Machine
end

