-- ==== Sys2Proof/Machine/Ops.lean ====
section
/-! DEFINITION. The shared operations: finite maps, saturating counters, raising an event (the block's whole fault
mechanism, 60_exceptions.md R220), emitting a unit, ending an operation, and reading the next frame. -/

namespace Sys2Proof.Machine

/-! ## Finite maps (00_scope.md section 5.1) -/

/-- The keys strictly rise: the canonical form of a map. -/
abbrev mapWf {w : Nat} {α : Type} (m : Map w α) : Prop :=
  m.Pairwise (fun a b => a.1.toNat < b.1.toNat)

/-- Lookup `M[k]`; `none` when `k` is not in `dom(M)`. -/
def mapGet {w : Nat} {α : Type} (m : Map w α) (k : BitVec w) : Option α :=
  match m with
  | [] => none
  | (k', v) :: rest => if k = k' then some v else mapGet rest k

/-- Insertion `M[k] <- v`, replacing the value a present key had. -/
def mapSet {w : Nat} {α : Type} (m : Map w α) (k : BitVec w) (v : α) : Map w α :=
  match m with
  | [] => [(k, v)]
  | (k', v') :: rest =>
    if k = k' then (k, v) :: rest
    else if k.toNat < k'.toNat then (k, v) :: (k', v') :: rest
    else (k', v') :: mapSet rest k v

/-- Removal `remove M[k]`; nothing happens when `k` is absent. -/
def mapDel {w : Nat} {α : Type} (m : Map w α) (k : BitVec w) : Map w α :=
  m.filter (fun c => c.1 != k)

/-- `k ∈ dom(M)`. -/
def mapHas {w : Nat} {α : Type} (m : Map w α) (k : BitVec w) : Bool := (mapGet m k).isSome

/-- The first element of a list on which `f` is least. -/
def argmin {α : Type} (f : α → Nat) : List α → Option α
  | [] => none
  | a :: rest =>
    match argmin f rest with
    | none => some a
    | some b => if f b < f a then some b else some a

/-! ## Counters (10_state.md R27) -/

/-- Increment by one, staying at `2^COUNTER_W - 1` once there. -/
def satInc (c : Config) (n : Nat) : Nat := if n < c.counterMax then n + 1 else n

/-! ## The effects of one Reassembler operation -/

/-- The Reassembler's state inside an operation, with the units and the events so far. -/
structure Reassembly where
  rsm    : RsmState
  units  : List CodingUnit
  events : List Event
  deriving DecidableEq, Repr

/-- An operation that has done nothing yet. -/
def Reassembly.start (r : RsmState) : Reassembly := ⟨r, [], []⟩

/-- `raise <Event>(info)`: append the event; nothing else changes and control goes nowhere (60_exceptions.md R220). -/
def Reassembly.raise (o : Reassembly) (e : Event) : Reassembly := { o with events := o.events ++ [e] }

/-- `emit(u)`: append the unit to the outputs and count it, saturating (42_reassembler.md R177). -/
def Reassembly.emitUnit (c : Config) (u : CodingUnit) (o : Reassembly) : Reassembly :=
  { o with
    rsm := { o.rsm with unitsReassembled := satInc c o.rsm.unitsReassembled }
    units := o.units ++ [u] }

/-- Replace the fragment buffers. -/
def Reassembly.setFb (o : Reassembly) (fb : Map 5 Bytes) : Reassembly := { o with rsm := { o.rsm with fb := fb } }

/-- First `o`, then the operation `next` on the state `o` left: the outputs follow each other in order
(20_memory.md R51). -/
def Reassembly.andThen (o : Reassembly) (next : RsmState → Reassembly) : Reassembly :=
  let o' := next o.rsm
  { rsm := o'.rsm, units := o.units ++ o'.units, events := o.events ++ o'.events }

/-! ## Ending an operation -/

/-- The operation returned: its outputs are on the ports (10_state.md R31). -/
def State.withOut (s : State) (out : Output) : State := { s with out := out }

def State.withFec (s : State) (f : FecState) : State := { s with fec := f }

def State.withRsm (s : State) (r : RsmState) : State := { s with rsm := r }

def State.withInput (s : State) (fs : List Frame) : State := { s with input := fs }

/-- A command that returns a value and changes no state (20_memory.md R46). -/
def answer (s : State) (v : Result) : Host.Outcome State Fault Refusal := .next (s.withOut ⟨[], [], v⟩)

/-! ## The command port (20_memory.md R53) -/

/-- The refusal a frame that decodes to nothing ends in (60_exceptions.md R228). -/
def refusalOf : DecodeError → Refusal
  | .emptyCommand => .malformedFrame
  | .reservedCode code => .reservedCommand code
  | .reservedSelector sel => .reservedSelector sel
  | .truncatedOperands => .malformedFrame
  | .trailingOperands => .malformedFrame

/-- What the command port presents: nothing, or the oldest frame decoded, with the frames behind it
(20_memory.md R47, R50). -/
inductive Presented where
  | idle
  | instr (i : Instr) (rest : List Frame)
  | undecodable (e : DecodeError)
  deriving DecidableEq, Repr

/-- Read the command port: each frame is read once, whole, in the order presented (20_memory.md R53). -/
def fetch (s : State) : Presented :=
  match s.input with
  | [] => .idle
  | f :: rest =>
    match decode f with
    | .ok i => .instr i rest
    | .error e => .undecodable e

/-- Present a frame so that it is the next one read. -/
def present (s : State) (f : Frame) : State := s.withInput (f :: s.input)

end Sys2Proof.Machine
end

