-- ==== Sys2Proof/Machine/Operands.lean ====
section
/-! DEFINITION. The operand forms: the packet of each datagram class (30_encoding.md R66), the computed range of a group
(R77), the selected counter (R74), and the input contract on operand lengths (R78). -/

namespace Sys2Proof.Machine

/-- `range(f, n)` of 30_encoding.md R77: the `n` numbers before `f`, ascending, modulo 65536. -/
def seqRange (f : SeqNum) (n : Nat) : List SeqNum :=
  (List.range n).map (fun i => f - BitVec.ofNat 16 n + BitVec.ofNat 16 i)

/-- The packet of a DG.FEC datagram. -/
def fecPacket (seq : SeqNum) (isStart isEnd : Bool) (count : UnitType) (gid : GroupId) (payload : Bytes) : Packet :=
  ⟨seq, true, isStart, isEnd, count, gid, payload⟩

/-- The packet of a media datagram. -/
def mediaPacket (isStart isEnd : Bool) (seq : SeqNum) (type : UnitType) (gid : GroupId) (payload : Bytes) : Packet :=
  ⟨seq, false, isStart, isEnd, type, gid, payload⟩

/-- The counter an RD_STAT selector names (30_encoding.md R74). -/
def selectedCounter (s : State) : Selector → Nat
  | .recoveredCount => s.fec.recoveredCount
  | .unitsReassembled => s.rsm.unitsReassembled
  | .packetsDeduplicated => s.rsm.packetsDeduplicated

/-- A datagram longer than MAX_DGRAM has no meaning (30_encoding.md R78); any other goes on to `k`. -/
def boundedDatagram (s : State) (len : Nat) (k : Host.Outcome State Fault Refusal) :
    Host.Outcome State Fault Refusal :=
  if s.cfg.maxDgram < len then .refused (.oversizeDatagram len) else k

end Sys2Proof.Machine
end

