-- ==== Sys2Proof/Machine/Codec.lean ====
section
/-! DEFINITION. PacketCodec's two commands (40_codec.md); both are pure (R94). -/

namespace Sys2Proof.Machine

/-- PARSE (40_codec.md R90, R91): MalformedPacket is a returned value and raises nothing (60_exceptions.md R222). -/
def execParse (dg : Bytes) (s : State) : Host.Outcome State Fault Refusal :=
  boundedDatagram s dg.length
    (answer s
      (match Sys2Proof.parse dg with
       | some p => .packet p
       | none => .malformedPacket))

/-- SERIALIZE (40_codec.md R92); a payload over MAX_PAYLOAD is outside its operands (log 9). -/
def execSerialize (p : Packet) (s : State) : Host.Outcome State Fault Refusal :=
  if s.cfg.maxPayload < p.payload.length then .refused (.oversizePayload p.payload.length)
  else answer s (.datagram (Sys2Proof.serialize p))

end Sys2Proof.Machine
end

