-- ==== Sys2Proof/Machine/Fec.lean ====
section
/-! DEFINITION. FECEngine (41_fec.md): the five steps of FEC.PROCESS, and FEC.GETRC, FEC.RESET. -/

namespace Sys2Proof.Machine

/-! ## Step 1: look up or create (41_fec.md R111) -/

/-- A group just created (10_state.md R14 to R17). -/
def freshGroup (c : Config) (birth : Nat) : Group :=
  { media := [], fec := none, expectedCount := c.fecGroupSize, birth := birth }

/-- The group of `gid`, created if absent. -/
def lookupOrCreate (c : Config) (f : FecState) (gid : GroupId) : Group :=
  match mapGet f.grp gid with
  | some g => g
  | none => freshGroup c f.birthCtr

/-- birthCtr after step 1: one more exactly when the group is created (10_state.md R18). -/
def birthAfter (f : FecState) (gid : GroupId) : Nat :=
  match mapGet f.grp gid with
  | some _ => f.birthCtr
  | none => f.birthCtr + 1

/-! ## Step 2: store (41_fec.md R112, R113) -/

/-- A redundancy packet replaces the one before and sets expectedCount; a media packet is stored under its number unless
the number is already there. -/
def storePacket (p : Packet) (g : Group) : Group :=
  if p.isFec then { g with fec := some p, expectedCount := p.typeOrCount }
  else
    match mapGet g.media p.sequenceNumber with
    | some _ => g
    | none => { g with media := mapSet g.media p.sequenceNumber p }

/-! ## Step 3: recovery (41_fec.md R114 to R119) -/

/-- XOR `m` into `acc` position by position up to the shorter length; `acc` keeps its length (41_fec.md R117). -/
def xorInto : Bytes → Bytes → Bytes
  | a :: acc, b :: m => (a ^^^ b) :: xorInto acc m
  | acc, _ => acc

/-- The redundancy payload with every stored media payload XOR-ed into it (41_fec.md R117). -/
def combine (parity : Bytes) (media : Map 16 Packet) : Bytes :=
  media.foldl (fun acc m => xorInto acc m.2.payload) parity

/-- The members of the range that are not stored (41_fec.md R116). -/
def missingMembers (f : Packet) (n : Nat) (media : Map 16 Packet) : List SeqNum :=
  (seqRange f.sequenceNumber n).filter (fun s => !mapHas media s)

/-- The packet synthesized for the missing member (41_fec.md R118). -/
def recoveredPacket (gid : GroupId) (seq : SeqNum) (payload : Bytes) : Packet :=
  { sequenceNumber := seq, isFec := false, isStart := false, isEnd := false,
    typeOrCount := 0, groupId := gid, payload := payload }

/-- Step 3 on the group as step 2 left it: a redundancy packet, exactly `expectedCount - 1` media packets (an integer
comparison, never true for `expectedCount = 0`, R114, R128), and exactly one absent member of the range (R116). -/
def recover (gid : GroupId) (g : Group) : Option Packet :=
  match g.fec with
  | none => none
  | some f =>
    if (g.media.length : Int) = (g.expectedCount.toNat : Int) - 1 then
      match missingMembers f g.expectedCount.toNat g.media with
      | [s] => some (recoveredPacket gid s (combine f.payload g.media))
      | _ => none
    else none

/-! ## Steps 4 and 5: completion and eviction (41_fec.md R121, R122) -/

/-- The group holds as many media packets as it expects, or more (41_fec.md R121, 92_eei_decisions.md D5). -/
def isComplete (g : Group) : Bool := decide (g.expectedCount.toNat ≤ g.media.length)

/-- `victim(GRP)` of 41_fec.md R122. -/
def victim (order : EvictOrder) (grp : Map 8 Group) : Option GroupId :=
  match order with
  | .numeric => (argmin (fun c => c.1.toNat) grp).map Prod.fst
  | .creation => (argmin (fun c => c.2.birth) grp).map Prod.fst

/-- `while |GRP| > MAX_GROUPS: remove GRP[victim(GRP)]`; each turn removes a group, so `|GRP|` turns are enough. -/
def evictLoop (c : Config) : Nat → Map 8 Group → Map 8 Group
  | 0, grp => grp
  | k + 1, grp =>
    if c.maxGroups < grp.length then
      match victim c.evictOrder grp with
      | some v => evictLoop c k (mapDel grp v)
      | none => grp
    else grp

/-- Step 5 (41_fec.md R122). -/
def evict (c : Config) (grp : Map 8 Group) : Map 8 Group := evictLoop c grp.length grp

/-! ## FEC.PROCESS (41_fec.md R110) -/

/-- The group of `p` after steps 1 and 2. -/
def groupAfterStore (c : Config) (f : FecState) (p : Packet) : Group :=
  storePacket p (lookupOrCreate c f p.groupId)

/-- GRP after step 4. -/
def grpAfterCompletion (c : Config) (f : FecState) (p : Packet) : Map 8 Group :=
  let g := groupAfterStore c f p
  if isComplete g then mapDel (mapSet f.grp p.groupId g) p.groupId else mapSet f.grp p.groupId g

/-- The packet step 3 recovers, if any. -/
def recoveredBy (c : Config) (f : FecState) (p : Packet) : Option Packet :=
  recover p.groupId (groupAfterStore c f p)

/-- The state FEC.PROCESS leaves; recoveredCount counts each synthesis (41_fec.md R119), the recovered packet is not
inserted in its group (R120). -/
def fecStateAfter (c : Config) (f : FecState) (p : Packet) : FecState :=
  { grp := evict c (grpAfterCompletion c f p)
    recoveredCount :=
      match recoveredBy c f p with
      | some _ => satInc c f.recoveredCount
      | none => f.recoveredCount
    birthCtr := birthAfter f p.groupId }

/-! ## The meanings -/

/-- FEC.PROCESS (41_fec.md R110): any packet; returns the list of zero or one recovered packets, raises nothing (R127). -/
def execFecProcess (p : Packet) (s : State) : Host.Outcome State Fault Refusal :=
  .next ((s.withFec (fecStateAfter s.cfg s.fec p)).withOut
    ⟨[], [], .recovered (recoveredBy s.cfg s.fec p).toList⟩)

/-- FEC.GETRC (41_fec.md R125). -/
def execFecGetRc (s : State) : Host.Outcome State Fault Refusal := answer s (.counter s.fec.recoveredCount)

/-- FEC.RESET (41_fec.md R126): FECEngine only. -/
def execFecReset (s : State) : Host.Outcome State Fault Refusal :=
  .next ((s.withFec .reset).withOut .empty)

end Sys2Proof.Machine
end

