-- ==== Sys2Proof/Machine/Flags.lean ====
section
/-! DEFINITION. The block has no flags and no condition codes (10_state.md R26). What stands in their place are the
events: their codes, their information words (60_exceptions.md R221), and the two warnings that are computed from data,
the sequence discontinuity (42_reassembler.md R156) and the type mismatch (R175). -/

namespace Sys2Proof.Machine

/-- The code column of 60_exceptions.md R221. -/
def Event.code : Event → Byte
  | .malformed _ => 0x01
  | .orphan _ _ _ => 0x02
  | .seqGap _ _ => 0x03
  | .typeMismatch _ _ => 0x04
  | .bufOverflow _ _ => 0x05

/-- `pos` of EV_ORPHAN (60_exceptions.md R221). -/
def FragmentPos.bit : FragmentPos → BitVec 1
  | .middle => 0
  | .final => 1

/-- The information word of 60_exceptions.md R221; unused bits are zero. -/
def Event.info : Event → BitVec 32
  | .malformed len => (0 : BitVec 16) ++ BitVec.ofNat 16 len
  | .orphan seq type pos => seq ++ (0 : BitVec 3) ++ type ++ (0 : BitVec 7) ++ pos.bit
  | .seqGap last seq => last ++ seq
  | .typeMismatch hdr emb => (0 : BitVec 19) ++ hdr ++ (0 : BitVec 3) ++ emb
  | .bufOverflow seq type => seq ++ (0 : BitVec 3) ++ type ++ (0 : BitVec 8)

/-- The observed number is not the modular successor of the last-seen one; never so before the first packet
(42_reassembler.md R156, 92_eei_decisions.md D12). -/
def gapWarning (lastSeq : Option SeqNum) (s : SeqNum) : Option Event :=
  match lastSeq with
  | none => none
  | some l => if s = l + 1 then none else some (.seqGap l s)

/-- The type embedded in a unit's first byte differs from the header type; an empty unit has no first byte
(42_reassembler.md R175, R176). -/
def embeddedType (data : Bytes) (hdr : UnitType) : UnitType :=
  match data with
  | [] => hdr
  | b :: _ => lowFive b

/-- The warning of 42_reassembler.md R175. -/
def mismatchWarning (data : Bytes) (hdr : UnitType) : Option Event :=
  if embeddedType data hdr = hdr then none else some (.typeMismatch hdr (embeddedType data hdr))

/-- Raise a warning if there is one. -/
def Reassembly.warn (o : Reassembly) : Option Event → Reassembly
  | none => o
  | some e => o.raise e

end Sys2Proof.Machine
end

