-- ==== Sys2Proof/Machine/Rsm.lean ====
section
/-! DEFINITION. Reassembler (42_reassembler.md): dedup window, discontinuity report, fragment state machine, emission,
and the four RSM commands. -/

namespace Sys2Proof.Machine

/-! ## The dedup window (42_reassembler.md R152 to R154) -/

/-- Append at the newest end; over the limit, the `floor(|DW| / 2)` oldest entries go. -/
def windowInsert (c : Config) (dw : List SeqNum) (s : SeqNum) : List SeqNum :=
  let dw' := dw ++ [s]
  if c.dedupCap < dw'.length then dw'.drop (dw'.length / 2) else dw'

/-! ## Emission (42_reassembler.md R175 to R177) -/

/-- EMIT: the embedded type of the unit's first byte wins over the header type, with a warning; one unit, one count. -/
def emit (c : Config) (hdr : UnitType) (data : Bytes) (o : Reassembly) : Reassembly :=
  (o.warn (mismatchWarning data hdr)).emitUnit c ⟨embeddedType data hdr, data⟩

/-! ## The fragment state machine (42_reassembler.md R159 to R166) -/

/-- SINGLE: emitted at once, no buffer read or written, no cap (R160). -/
def fragSingle (c : Config) (p : Packet) (o : Reassembly) : Reassembly := emit c p.typeOrCount p.payload o

/-- The buffer of type `t` is discarded and the packet dropped (R166). -/
def overflow (p : Packet) (o : Reassembly) : Reassembly :=
  (o.setFb (mapDel o.rsm.fb p.typeOrCount)).raise (.bufOverflow p.sequenceNumber p.typeOrCount)

/-- START: a new buffer replaces any open one of the type (R161). -/
def fragStart (c : Config) (p : Packet) (o : Reassembly) : Reassembly :=
  if c.fragBufCap < p.payload.length then overflow p o
  else o.setFb (mapSet o.rsm.fb p.typeOrCount p.payload)

/-- END: the open buffer and the payload are emitted and the buffer closes (R162); none open, an orphan (R163). -/
def fragEnd (c : Config) (p : Packet) (o : Reassembly) : Reassembly :=
  match mapGet o.rsm.fb p.typeOrCount with
  | none => o.raise (.orphan p.sequenceNumber p.typeOrCount .final)
  | some buf =>
    if c.fragBufCap < buf.length + p.payload.length then overflow p o
    else emit c p.typeOrCount (buf ++ p.payload) (o.setFb (mapDel o.rsm.fb p.typeOrCount))

/-- MID: the payload is appended to the open buffer (R164); none open, an orphan (R165). -/
def fragMid (c : Config) (p : Packet) (o : Reassembly) : Reassembly :=
  match mapGet o.rsm.fb p.typeOrCount with
  | none => o.raise (.orphan p.sequenceNumber p.typeOrCount .middle)
  | some buf =>
    if c.fragBufCap < buf.length + p.payload.length then overflow p o
    else o.setFb (mapSet o.rsm.fb p.typeOrCount (buf ++ p.payload))

/-- The transition driven by `(isStart, isEnd)`, on the machine of the header type (R159). -/
def fragment (c : Config) (p : Packet) (o : Reassembly) : Reassembly :=
  match p.isStart, p.isEnd with
  | true, true => fragSingle c p o
  | true, false => fragStart c p o
  | false, true => fragEnd c p o
  | false, false => fragMid c p o

/-! ## RSM.PROCESS (42_reassembler.md R150) -/

/-- A packet whose number is in the window is counted and dropped, nothing else (R152). -/
def dropDuplicate (c : Config) (r : RsmState) : Reassembly :=
  .start { r with packetsDeduplicated := satInc c r.packetsDeduplicated }

/-- A packet that passed the dedup check: window insert (R153, R154), discontinuity report and last-seen number
(R156, R157), then the state machine. -/
def acceptPacket (c : Config) (p : Packet) (r : RsmState) : Reassembly :=
  let r' := { r with dw := windowInsert c r.dw p.sequenceNumber, lastSeq := some p.sequenceNumber }
  fragment c p ((Reassembly.start r').warn (gapWarning r.lastSeq p.sequenceNumber))

/-- The three checks in D0's order: FEC packets are ignored (R151), duplicates dropped (R152), the rest accepted. -/
def reassemble (c : Config) (p : Packet) (r : RsmState) : Reassembly :=
  if p.isFec then .start r
  else if p.sequenceNumber ∈ r.dw then dropDuplicate c r
  else acceptPacket c p r

/-! ## The meanings -/

/-- RSM.PROCESS (42_reassembler.md R150): any packet; FECEngine plays no part. -/
def execRsmProcess (p : Packet) (s : State) : Host.Outcome State Fault Refusal :=
  let o := reassemble s.cfg p s.rsm
  .next ((s.withRsm o.rsm).withOut ⟨o.units, o.events, .nothing⟩)

/-- RSM.GETUNITS (42_reassembler.md R178). -/
def execRsmGetUnits (s : State) : Host.Outcome State Fault Refusal := answer s (.counter s.rsm.unitsReassembled)

/-- RSM.GETDEDUP (42_reassembler.md R179). -/
def execRsmGetDedup (s : State) : Host.Outcome State Fault Refusal := answer s (.counter s.rsm.packetsDeduplicated)

/-- RSM.RESET (42_reassembler.md R180): Reassembler only. -/
def execRsmReset (s : State) : Host.Outcome State Fault Refusal :=
  .next ((s.withRsm .reset).withOut .empty)

end Sys2Proof.Machine
end

