-- ==== Sys2Proof/Machine/Pipeline.lean ====
section
/-! DEFINITION. The pipeline sequencer (43_pipeline.md): RX and its five datagram classes, RESET, RD_STAT. -/

namespace Sys2Proof.Machine

/-- The Reassembler's part of RX: the original if it is a media packet, then every recovered packet, in order
(43_pipeline.md R202). -/
def reassembleAll (c : Config) (p : Packet) (recovered : List Packet) (r : RsmState) : Reassembly :=
  let original := if p.isFec then .start r else reassemble c p r
  recovered.foldl (fun o q => o.andThen (reassemble c q)) original

/-- RX after PARSE succeeded (43_pipeline.md R200, R202): FEC.PROCESS on the packet whatever its class, then the
Reassembler; the units go to the sink, then the events to the diagnostic port (R203). -/
def routePacket (p : Packet) (s : State) : State :=
  let o := reassembleAll s.cfg p (recoveredBy s.cfg s.fec p).toList s.rsm
  ((s.withFec (fecStateAfter s.cfg s.fec p)).withRsm o.rsm).withOut ⟨o.units, o.events, .nothing⟩

/-- A datagram shorter than the header (43_pipeline.md R201): one event, no state change. -/
def dropMalformed (len : Nat) (s : State) : State := s.withOut ⟨[], [.malformed len], .nothing⟩

/-- RX of a datagram that has the header of `p` and its payload, given by class. -/
def receive (p : Packet) (s : State) : Host.Outcome State Fault Refusal :=
  boundedDatagram s (Config.hdrLen + p.payload.length) (.next (routePacket p s))

/-! ## The meanings -/

/-- RX (43_pipeline.md R200 to R203). -/
def execRx (dg : Bytes) (s : State) : Host.Outcome State Fault Refusal :=
  boundedDatagram s dg.length
    (match Sys2Proof.parse dg with
     | some p => .next (routePacket p s)
     | none => .next (dropMalformed dg.length s))

/-- DG.FEC (43_pipeline.md R204). -/
def execDgFec (seq : SeqNum) (isStart isEnd : Bool) (count : UnitType) (gid : GroupId) (payload : Bytes) (s : State) :
    Host.Outcome State Fault Refusal :=
  receive (fecPacket seq isStart isEnd count gid payload) s

/-- DG.SINGLE (43_pipeline.md R205). -/
def execDgSingle (seq : SeqNum) (type : UnitType) (gid : GroupId) (payload : Bytes) (s : State) :
    Host.Outcome State Fault Refusal :=
  receive (mediaPacket true true seq type gid payload) s

/-- DG.START (43_pipeline.md R206). -/
def execDgStart (seq : SeqNum) (type : UnitType) (gid : GroupId) (payload : Bytes) (s : State) :
    Host.Outcome State Fault Refusal :=
  receive (mediaPacket true false seq type gid payload) s

/-- DG.MID (43_pipeline.md R207). -/
def execDgMid (seq : SeqNum) (type : UnitType) (gid : GroupId) (payload : Bytes) (s : State) :
    Host.Outcome State Fault Refusal :=
  receive (mediaPacket false false seq type gid payload) s

/-- DG.END (43_pipeline.md R208). -/
def execDgEnd (seq : SeqNum) (type : UnitType) (gid : GroupId) (payload : Bytes) (s : State) :
    Host.Outcome State Fault Refusal :=
  receive (mediaPacket false true seq type gid payload) s

/-- RESET (43_pipeline.md R209): FEC.RESET and RSM.RESET; the parameters stay (10_state.md R32). -/
def execReset (s : State) : Host.Outcome State Fault Refusal :=
  .next (((s.withFec .reset).withRsm .reset).withOut .empty)

/-- RD_STAT (43_pipeline.md R210). -/
def execRdStat (sel : Selector) (s : State) : Host.Outcome State Fault Refusal :=
  answer s (.counter (selectedCounter s sel))

end Sys2Proof.Machine
end

