-- ==== Sys2Proof/Machine/Dispatch.lean ====
section
/-! DEFINITION. One arm per instruction, each a call of its meaning. -/

namespace Sys2Proof.Machine

def exec (i : Instr) (s : State) : Host.Outcome State Fault Refusal :=
  match i with
  -- the five datagram classes (30_encoding.md R66)
  | .dgFec seq isStart isEnd count gid payload => Sys2Proof.Machine.execDgFec seq isStart isEnd count gid payload s
  | .dgSingle seq type gid payload => Sys2Proof.Machine.execDgSingle seq type gid payload s
  | .dgStart seq type gid payload => Sys2Proof.Machine.execDgStart seq type gid payload s
  | .dgMid seq type gid payload => Sys2Proof.Machine.execDgMid seq type gid payload s
  | .dgEnd seq type gid payload => Sys2Proof.Machine.execDgEnd seq type gid payload s
  -- the pipeline commands (43_pipeline.md)
  | .rx dg => Sys2Proof.Machine.execRx dg s
  | .reset => Sys2Proof.Machine.execReset s
  | .rdStat sel => Sys2Proof.Machine.execRdStat sel s
  -- PacketCodec (40_codec.md)
  | .parse dg => Sys2Proof.Machine.execParse dg s
  | .serialize p => Sys2Proof.Machine.execSerialize p s
  -- FECEngine (41_fec.md)
  | .fecProcess p => Sys2Proof.Machine.execFecProcess p s
  | .fecGetRc => Sys2Proof.Machine.execFecGetRc s
  | .fecReset => Sys2Proof.Machine.execFecReset s
  -- Reassembler (42_reassembler.md)
  | .rsmProcess p => Sys2Proof.Machine.execRsmProcess p s
  | .rsmGetUnits => Sys2Proof.Machine.execRsmGetUnits s
  | .rsmGetDedup => Sys2Proof.Machine.execRsmGetDedup s
  | .rsmReset => Sys2Proof.Machine.execRsmReset s

end Sys2Proof.Machine
end

