-- ==== Sys2Proof/Machine/Step.lean ====
section
/-! DEFINITION. One step: the oldest frame on the command port is read, decoded and executed whole (20_memory.md R47,
R50, R53). There is no program counter (10_state.md R11). -/

namespace Sys2Proof.Machine

/-- One step. With nothing presented the block holds its state and its ports carry nothing (60_exceptions.md R230 and
section 11, log 5). A frame without an instruction is refused by name (R228). -/
def step (s : State) : Host.Outcome State Fault Refusal :=
  match fetch s with
  | .idle => .next (s.withOut .empty)
  | .instr i rest => exec i (s.withInput rest)
  | .undecodable e => .refused (refusalOf e)

/-- The instruction of a table word, presented so that the next step runs it (log 1). -/
def State.withFetchWord (s : State) (nbits w : Nat) : State := present s (frameOfTableWord nbits w)

end Sys2Proof.Machine
end

