-- ==== Sys2Proof/Safety.lean ====
section
/-! DEFINITION. The terms claims are stated in: the invariant of a block instance (10_state.md R19, R22, R24, R27), runs
of commands, and the sender's contract (41_fec.md R131). -/

namespace Sys2Proof

open Sys2Proof.Machine

/-! ## The invariant between operations -/

/-- One live group under its key (10_state.md R19 (b), (c), (d); R14: its media map is canonical). -/
abbrev groupOk (c : Config) (birthCtr : Nat) (gid : GroupId) (g : Group) : Prop :=
  mapWf g.media ∧
  g.media.length < g.expectedCount.toNat ∧
  (∀ m ∈ g.media, m.2.sequenceNumber = m.1 ∧ m.2.isFec = false ∧ m.2.groupId = gid) ∧
  (g.fec = none → g.expectedCount = c.fecGroupSize) ∧
  (∀ f ∈ g.fec.toList, f.groupId = gid ∧ f.isFec = true ∧ g.expectedCount = f.typeOrCount) ∧
  g.birth < birthCtr

/-- FECEngine between operations (10_state.md R19, R27). -/
abbrev fecInv (c : Config) (f : FecState) : Prop :=
  mapWf f.grp ∧
  f.grp.length ≤ c.maxGroups ∧
  (∀ e ∈ f.grp, groupOk c f.birthCtr e.1 e.2) ∧
  (f.grp.map (fun e => e.2.birth)).Nodup ∧
  f.recoveredCount ≤ c.counterMax

/-- Reassembler between operations (10_state.md R22, R24, R27); the last-seen number is the newest entry of the window,
because every packet that passes the dedup check enters both (42_reassembler.md R153, R157). -/
abbrev rsmInv (c : Config) (r : RsmState) : Prop :=
  mapWf r.fb ∧
  (∀ b ∈ r.fb, b.2.length ≤ c.fragBufCap) ∧
  r.dw.Nodup ∧
  r.dw.length ≤ c.dedupCap ∧
  r.lastSeq = r.dw.getLast? ∧
  r.unitsReassembled ≤ c.counterMax ∧
  r.packetsDeduplicated ≤ c.counterMax

/-- A block instance between operations, of a build the spec allows. -/
abbrev Inv (s : State) : Prop := s.cfg.valid ∧ fecInv s.cfg s.fec ∧ rsmInv s.cfg s.rsm

/-! ## Runs -/

/-- The commands one after another (20_memory.md R50), with the outputs of each; `none` when one of them is refused. -/
def runCommands : List Instr → State → Option (State × List Output)
  | [], s => some (s, [])
  | i :: rest, s =>
    match exec i s with
    | .next t =>
      match runCommands rest t with
      | some (u, outs) => some (u, t.out :: outs)
      | none => none
    | .fault _ => none
    | .refused _ => none

/-- A safe run: every command has its effect, none is refused. -/
def safeRun (is : List Instr) (s : State) : Bool := (runCommands is s).isSome

/-- The packets FEC.PROCESS returned, over the outputs of a run. -/
def recoveredOf (outs : List Output) : List Packet :=
  outs.flatMap (fun o =>
    match o.result with
    | .recovered ps => ps
    | .nothing => []
    | .counter _ => []
    | .packet _ => []
    | .malformedPacket => []
    | .datagram _ => [])

/-- The coding units emitted, over the outputs of a run, in order (20_memory.md R51). -/
def unitsOf (outs : List Output) : List CodingUnit := outs.flatMap (fun o => o.units)

/-! ## Rows of the opcode table -/

/-- The table row a datagram class stands for (30_encoding.md R66); the commands stand for none of the five. -/
def classMnemonic : Instr → Option String
  | .dgFec _ _ _ _ _ _ => some "DG.FEC"
  | .dgSingle _ _ _ _ => some "DG.SINGLE"
  | .dgStart _ _ _ _ => some "DG.START"
  | .dgMid _ _ _ _ => some "DG.MID"
  | .dgEnd _ _ _ _ => some "DG.END"
  | .rx _ => none
  | .reset => none
  | .rdStat _ => none
  | .parse _ => none
  | .serialize _ => none
  | .fecProcess _ => none
  | .fecGetRc => none
  | .fecReset => none
  | .rsmProcess _ => none
  | .rsmGetUnits => none
  | .rsmGetDedup => none
  | .rsmReset => none

/-! ## The sender's contract (41_fec.md R131) -/

/-- XOR of byte `i` of every payload that has a byte `i`. -/
def xorAt (i : Nat) (payloads : List Bytes) : Byte :=
  payloads.foldr (fun pl acc => (pl[i]?).getD 0#8 ^^^ acc) 0#8

/-- A group as the sender of 41_fec.md R131 makes it: (a) the members carry consecutive numbers from `first` and one
groupId; (b) the redundancy packet follows them; (c) its payload is the XOR of theirs and at least as long as each. -/
structure SenderGroup (gid : GroupId) (first : SeqNum) (members : List Packet) (parity : Packet) : Prop where
  size       : 1 ≤ members.length ∧ members.length ≤ 31
  member     : ∀ i (h : i < members.length), members[i].sequenceNumber = first + BitVec.ofNat 16 i ∧
                 members[i].isFec = false ∧ members[i].groupId = gid
  parityHead : parity.isFec = true ∧ parity.groupId = gid ∧
                 parity.sequenceNumber = first + BitVec.ofNat 16 members.length ∧
                 parity.typeOrCount.toNat = members.length
  covers     : ∀ m ∈ members, m.payload.length ≤ parity.payload.length
  parityByte : ∀ i (h : i < parity.payload.length), parity.payload[i] = xorAt i (members.map (fun m => m.payload))

/-! ## Sequence numbers moved by a constant (41_fec.md R130, "Sequence wraparound") -/

/-- The packet with its number moved by `d`, modulo 65536. -/
def shiftPacket (d : SeqNum) (p : Packet) : Packet := { p with sequenceNumber := p.sequenceNumber + d }

/-- Two groups that differ only in that every sequence number of the second is moved by `d`. -/
structure ShiftedGroup (d : SeqNum) (g g' : Group) : Prop where
  wf       : mapWf g.media ∧ mapWf g'.media
  media    : ∀ k, mapGet g'.media (k + d) = (mapGet g.media k).map (shiftPacket d)
  fec      : g'.fec = g.fec.map (shiftPacket d)
  expected : g'.expectedCount = g.expectedCount
  birth    : g'.birth = g.birth

/-- Two FECEngine states that differ only so, group by group. -/
structure ShiftedFec (d : SeqNum) (f f' : FecState) : Prop where
  groups    : List.Forall₂ (fun e e' => e'.1 = e.1 ∧ ShiftedGroup d e.2 e'.2) f.grp f'.grp
  recovered : f'.recoveredCount = f.recoveredCount
  births    : f'.birthCtr = f.birthCtr

end Sys2Proof
end

