-- ==== Sys2Proof/Certificates/Slice0/Obligations.lean ====
section
/-! DEFINITION. The statements for the provers, one definition each; OBLIGATIONS.json lists them in this order. -/

open Sys2Proof Sys2Proof.Machine

/-! ## Reset (43_pipeline.md R209, 41_fec.md R126, 42_reassembler.md R180, 10_state.md R32) -/

/-- R209: RESET performs FEC.RESET and RSM.RESET, leaves every piece of state at its reset value and the
parameters alone, returns nothing, raises nothing, emits nothing, and is idempotent; its code is 0x02. -/
def Obligations.ResetCommandClearsBothEngines : Prop :=
  decode (.command [0x02]) = .ok .reset ∧
  ∀ s : State, ∃ t u, exec .reset s = .next t ∧
    t.fec.grp = [] ∧ t.fec.recoveredCount = 0 ∧ t.fec.birthCtr = 0 ∧
    t.rsm.fb = [] ∧ t.rsm.dw = [] ∧ t.rsm.lastSeq = none ∧
    t.rsm.unitsReassembled = 0 ∧ t.rsm.packetsDeduplicated = 0 ∧
    t.cfg = s.cfg ∧ t.input = s.input ∧ t.out = ⟨[], [], .nothing⟩ ∧
    exec .fecReset s = .next u ∧ exec .rsmReset u = .next t ∧
    exec .reset t = .next t

/-- The spec's own decision D3 (70_reset_and_hazards.md section 1), parameters at the defaults of 00_scope.md section 4,
and the model's own fields empty (log 11): the state after power-on. -/
def Obligations.PowerOnStateIsTheResetState : Prop :=
  State.reset.fec.grp = [] ∧ State.reset.fec.recoveredCount = 0 ∧ State.reset.fec.birthCtr = 0 ∧
  State.reset.rsm.fb = [] ∧ State.reset.rsm.dw = [] ∧ State.reset.rsm.lastSeq = none ∧
  State.reset.rsm.unitsReassembled = 0 ∧ State.reset.rsm.packetsDeduplicated = 0 ∧
  State.reset.cfg = ⟨4, 4, .numeric, 1400, 204800, 50, 64⟩ ∧
  State.reset.input = [] ∧ State.reset.out = ⟨[], [], .nothing⟩

/-- R126: FEC.RESET clears FECEngine and touches nothing of the Reassembler. -/
def Obligations.FecResetClearsOnlyFecEngine : Prop :=
  decode (.command [0x22]) = .ok .fecReset ∧
  ∀ s : State, exec .fecReset s = .next
    { s with fec := { grp := [], recoveredCount := 0, birthCtr := 0 }, out := ⟨[], [], .nothing⟩ }

/-- R180: RSM.RESET clears the Reassembler and touches nothing of FECEngine. -/
def Obligations.RsmResetClearsOnlyReassembler : Prop :=
  decode (.command [0x33]) = .ok .rsmReset ∧
  ∀ s : State, exec .rsmReset s = .next
    { s with
      rsm := { fb := [], dw := [], lastSeq := none, unitsReassembled := 0, packetsDeduplicated := 0 }
      out := ⟨[], [], .nothing⟩ }

/-! ## Reading counters -/

/-- R125: FEC.GETRC returns recoveredCount, writes nothing, raises nothing, and may be repeated. -/
def Obligations.FecGetRcReturnsRecoveredCount : Prop :=
  decode (.command [0x21]) = .ok .fecGetRc ∧
  ∀ s : State, ∃ t, exec .fecGetRc s = .next t ∧
    t = { s with out := ⟨[], [], .counter s.fec.recoveredCount⟩ } ∧ exec .fecGetRc t = .next t

/-- The spec's own accessors (decision D1; 43_pipeline.md section 3, 42_reassembler.md section 9): each selector and each
accessor returns its counter and changes no state. -/
def Obligations.CounterReadsReturnAndChangeNothing : Prop :=
  ∀ s : State,
    exec (.rdStat .recoveredCount) s = .next { s with out := ⟨[], [], .counter s.fec.recoveredCount⟩ } ∧
    exec (.rdStat .unitsReassembled) s = .next { s with out := ⟨[], [], .counter s.rsm.unitsReassembled⟩ } ∧
    exec (.rdStat .packetsDeduplicated) s = .next { s with out := ⟨[], [], .counter s.rsm.packetsDeduplicated⟩ } ∧
    exec .rsmGetUnits s = .next { s with out := ⟨[], [], .counter s.rsm.unitsReassembled⟩ } ∧
    exec .rsmGetDedup s = .next { s with out := ⟨[], [], .counter s.rsm.packetsDeduplicated⟩ }

/-! ## PacketCodec -/

/-- R63, R91: PARSE of four bytes or more returns the packet whose fields are the bytes' numbers as written there; of
fewer it returns MalformedPacket. Nothing else changes. -/
def Obligations.ParseReadsTheHeaderFields : Prop :=
  (∀ (s : State) (b0 b1 b2 b3 : Byte) (payload : Bytes), payload.length ≤ s.cfg.maxPayload →
    ∃ p, exec (.parse (b0 :: b1 :: b2 :: b3 :: payload)) s = .next { s with out := ⟨[], [], .packet p⟩ } ∧
      p.sequenceNumber.toNat = b0.toNat * 256 + b1.toNat ∧
      p.isFec = decide (b2.toNat / 128 % 2 = 1) ∧
      p.isStart = decide (b2.toNat / 64 % 2 = 1) ∧
      p.isEnd = decide (b2.toNat / 32 % 2 = 1) ∧
      p.typeOrCount.toNat = b2.toNat % 32 ∧
      p.groupId = b3 ∧
      p.payload = payload) ∧
  (∀ (s : State) (dg : Bytes), dg.length < 4 →
    exec (.parse dg) s = .next { s with out := ⟨[], [], .malformedPacket⟩ })

/-- R64: SERIALIZE returns the datagram whose header bytes are assembled as written there, followed by the payload. -/
def Obligations.SerializeAssemblesTheHeader : Prop :=
  ∀ (s : State) (p : Packet), p.payload.length ≤ s.cfg.maxPayload →
    ∃ b0 b1 b2 : Byte,
      exec (.serialize p) s = .next
        { s with out := ⟨[], [], .datagram (b0 :: b1 :: b2 :: p.groupId :: p.payload)⟩ } ∧
      b0.toNat = p.sequenceNumber.toNat / 256 ∧
      b1.toNat = p.sequenceNumber.toNat % 256 ∧
      b2.toNat = 128 * p.isFec.toNat + 64 * p.isStart.toNat + 32 * p.isEnd.toNat + p.typeOrCount.toNat

/-- The round-trip laws of 40_codec.md (marked derived there), on the two commands: PARSE undoes SERIALIZE on every
packet and SERIALIZE undoes PARSE on every datagram with a header, inside the payload contract. -/
def Obligations.ParseAndSerializeUndoEachOther : Prop :=
  (∀ (s : State) (p : Packet), p.payload.length ≤ s.cfg.maxPayload →
    ∃ dg t u, exec (.serialize p) s = .next t ∧ t.out.result = .datagram dg ∧
      exec (.parse dg) t = .next u ∧ u.out.result = .packet p) ∧
  (∀ (s : State) (dg : Bytes), 4 ≤ dg.length → dg.length ≤ s.cfg.maxDgram →
    ∃ p t u, exec (.parse dg) s = .next t ∧ t.out.result = .packet p ∧
      exec (.serialize p) t = .next u ∧ u.out.result = .datagram dg)

/-! ## Encodings -/

/-- Decoding undoes encoding for every instruction of the table, every operand at every value its encoding admits (the
operand layout of the commands is the model's choice, log 3). -/
def Obligations.DecodeUndoesEncode : Prop :=
  ∀ i : Instr, i.encodable = true → decode (encode i) = .ok i

/-- And encoding undoes decoding: a command frame that decodes is the encoding of what it decodes to, and so is every
datagram frame that holds a header (the operand layout is the model's choice, log 3). -/
def Obligations.EncodeUndoesDecode : Prop :=
  (∀ (bytes : Bytes) (i : Instr), decode (.command bytes) = .ok i → encode i = .command bytes) ∧
  (∀ (dg : Bytes) (i : Instr), 4 ≤ dg.length → decode (.datagram dg) = .ok i → encode i = .datagram dg)

/-- R66: every header word falls in exactly one of the five rows of the class table, and a datagram with that header
decodes to the class of the row, its operands the fields PARSE reads; a datagram shorter than a header has no class. -/
def Obligations.EveryHeaderHasExactlyOneClass : Prop :=
  (∀ (b0 b1 b2 b3 : Byte) (payload : Bytes),
    ∃ row i p, classRows.filter (fun r => r.covers (b0 ++ b1 ++ b2 ++ b3)) = [row] ∧
      decode (.datagram (b0 :: b1 :: b2 :: b3 :: payload)) = .ok i ∧
      classMnemonic i = some row.mnemonic ∧
      parse (b0 :: b1 :: b2 :: b3 :: payload) = some p ∧ packetOfClass i = some p) ∧
  (∀ (dg : Bytes) (i : Instr), dg.length < 4 → decode (.datagram dg) = .ok i → classMnemonic i = none)

/-- Words written out from the spec: the datagrams K1, K2, K4, K6, K7 of 95_test_vectors.md section 2, and one frame of
each command family with the codes of 30_encoding.md section 7 (operand layout: log 3). -/
def Obligations.SpecWordsDecode : Prop :=
  decode (.datagram [0x00, 0x64, 0x00, 0x07, 0x01, 0x02]) = .ok (.dgMid 100 0 7 [0x01, 0x02]) ∧
  decode (.datagram [0x00, 0x68, 0x84, 0x07, 0x0F, 0x0E]) = .ok (.dgFec 104 false false 4 7 [0x0F, 0x0E]) ∧
  decode (.datagram [0x12, 0x34, 0x65, 0x09, 0xAA]) = .ok (.dgSingle 4660 5 9 [0xAA]) ∧
  decode (.datagram [0x00, 0x0A, 0x45, 0x01, 0x65, 0xAA]) = .ok (.dgStart 10 5 1 [0x65, 0xAA]) ∧
  decode (.datagram [0x00, 0x0D, 0x25, 0x01, 0xCC, 0xDD]) = .ok (.dgEnd 13 5 1 [0xCC, 0xDD]) ∧
  decode (.command [0x01, 0, 0, 0, 3, 0x01, 0x02, 0x03]) = .ok (.rx [0x01, 0x02, 0x03]) ∧
  decode (.command [0x03, 0x02]) = .ok (.rdStat .packetsDeduplicated) ∧
  decode (.command [0x10, 0, 0, 0, 1, 0x80]) = .ok (.parse [0x80]) ∧
  decode (.command [0x20, 0x00, 0x68, 0x84, 0x07, 0, 0, 0, 2, 0x0F, 0x0E]) =
    .ok (.fecProcess ⟨104, true, false, false, 4, 7, [0x0F, 0x0E]⟩) ∧
  decode (.command [0x31]) = .ok .rsmGetUnits

/-! ## Stops (60_exceptions.md R228) -/

/-- The spec's own refusals (decisions D1, D16): a reserved command code and a reserved selector have no meaning. -/
def Obligations.ReservedCodesAndSelectorsAreRefused : Prop :=
  (∀ (s : State) (code : Byte) (ops : Bytes) (rest : List Frame),
    code ∉ [0x01, 0x02, 0x03, 0x10, 0x11, 0x20, 0x21, 0x22, 0x30, 0x31, 0x32, 0x33] →
    step { s with input := .command (code :: ops) :: rest } = .refused (.reservedCommand code)) ∧
  (∀ (s : State) (sel : Byte) (ops : Bytes) (rest : List Frame), 3 ≤ sel.toNat →
    step { s with input := .command (0x03 :: sel :: ops) :: rest } = .refused (.reservedSelector sel))

/-- The spec's own refusal (decision D16): a datagram over MAX_DGRAM has no meaning, whichever way it is given; and the
model's (log 9): SERIALIZE of a payload over MAX_PAYLOAD. -/
def Obligations.OversizeInputIsRefused : Prop :=
  ∀ s : State,
    (∀ dg : Bytes, s.cfg.maxDgram < dg.length →
      exec (.rx dg) s = .refused (.oversizeDatagram dg.length) ∧
      exec (.parse dg) s = .refused (.oversizeDatagram dg.length)) ∧
    (∀ (i : Instr) (p : Packet), packetOfClass i = some p → s.cfg.maxPayload < p.payload.length →
      exec i s = .refused (.oversizeDatagram (4 + p.payload.length))) ∧
    (∀ p : Packet, s.cfg.maxPayload < p.payload.length →
      exec (.serialize p) s = .refused (.oversizePayload p.payload.length))

/-- An instruction has an effect exactly when it lies inside the operand contract of its build: no other refusal, no
fault. That a datagram over MAX_DGRAM has none is the spec's own decision D16; that SERIALIZE of a payload over MAX_PAYLOAD
has none is the model's choice (log 9), which no rule names. -/
def Obligations.ExactlyTheWellFormedInstructionsComplete : Prop :=
  ∀ (i : Instr) (s : State), Instr.wf s.cfg i = true ↔ ∃ t, exec i s = .next t

/-! ## The step -/

/-- A step runs the instruction the oldest frame on the command port decodes to, with that frame taken off the port. -/
def Obligations.StepRunsTheDecodedInstruction : Prop :=
  ∀ (s : State) (f : Frame) (rest : List Frame) (i : Instr), s.input = f :: rest → decode f = .ok i →
    step s = exec i { s with input := rest }

/-- The model's own conventions (log 4, log 5): with nothing presented the state is held and the ports carry nothing; a
frame without an instruction is refused. -/
def Obligations.StepWithoutAnInstruction : Prop :=
  (∀ s : State, s.input = [] → step s = .next { s with out := ⟨[], [], .nothing⟩ }) ∧
  (∀ (s : State) (f : Frame) (rest : List Frame) (e : DecodeError), s.input = f :: rest → decode f = .error e →
    ∃ r, step s = .refused r)

/-! ## The pipeline (43_pipeline.md) -/

/-- R201: a datagram shorter than four bytes raises EV_MALFORMED with its length, changes no state, emits nothing. -/
def Obligations.ShortDatagramIsDroppedWithOneEvent : Prop :=
  ∀ (s : State) (dg : Bytes), dg.length < 4 →
    exec (.rx dg) s = .next { s with out := ⟨[], [.malformed dg.length], .nothing⟩ }

/-- 43_pipeline.md section 2: each datagram class is RX specialised to the class. -/
def Obligations.EachClassIsRxOfItsDatagram : Prop :=
  ∀ (i : Instr) (p : Packet) (s : State), packetOfClass i = some p → exec i s = exec (.rx (serialize p)) s

/-- R202: RX of a datagram is FEC.PROCESS on its packet whatever its class, then RSM.PROCESS on the packet, then
RSM.PROCESS on the recovered packet, in that order, outputs appended in that order; for an FEC packet the second part does
nothing, so that not routing it there is the same. -/
def Obligations.RxIsTheCompositionOfItsParts : Prop :=
  ∀ (s : State) (dg : Bytes) (p : Packet), parse dg = some p → dg.length ≤ s.cfg.maxDgram →
    ∃ t1 rec t2, exec (.fecProcess p) s = .next t1 ∧ t1.out.result = .recovered rec ∧
      exec (.rsmProcess p) t1 = .next t2 ∧
      (p.isFec = true → t2.rsm = t1.rsm ∧ t2.out.units = [] ∧ t2.out.events = []) ∧
      ((rec = [] ∧ exec (.rx dg) s = .next t2) ∨
       (∃ q t3, rec = [q] ∧ exec (.rsmProcess q) t2 = .next t3 ∧
          exec (.rx dg) s = .next
            { t3 with out := ⟨t2.out.units ++ t3.out.units, t2.out.events ++ t3.out.events, .nothing⟩ }))

/-- 43_pipeline.md section 1, corner cases (marked derived there): a datagram emits at most one unit, and only a SINGLE or
END packet that is not in the dedup window does. -/
def Obligations.OneDatagramEmitsAtMostOneUnit : Prop :=
  ∀ (i : Instr) (p : Packet) (s : State), packetOfClass i = some p → p.payload.length ≤ s.cfg.maxPayload →
    ∃ t, exec i s = .next t ∧ t.out.units.length ≤ 1 ∧
      (t.out.units ≠ [] → p.isFec = false ∧ p.isEnd = true ∧ p.sequenceNumber ∉ s.rsm.dw)

/-- 43_pipeline.md section 2, DG.FEC: FECEngine does what FEC.PROCESS does; the FEC packet itself does not reach the
Reassembler, a recovered packet does; no unit is emitted. -/
def Obligations.DgFecFeedsOnlyTheRecoveredPacketOn : Prop :=
  ∀ (s : State) (seq : SeqNum) (a e : Bool) (n : UnitType) (gid : GroupId) (payload : Bytes),
    payload.length ≤ s.cfg.maxPayload →
    ∃ v rec t, exec (.fecProcess ⟨seq, true, a, e, n, gid, payload⟩) s = .next v ∧ v.out.result = .recovered rec ∧
      exec (.dgFec seq a e n gid payload) s = .next t ∧
      t.fec = v.fec ∧ t.cfg = s.cfg ∧ t.input = s.input ∧ t.out.units = [] ∧ t.out.result = .nothing ∧
      t.rsm.unitsReassembled = s.rsm.unitsReassembled ∧
      ((rec = [] ∧ t.rsm = s.rsm ∧ t.out.events = []) ∨
       (∃ q w, rec = [q] ∧ exec (.rsmProcess q) s = .next w ∧ t.rsm = w.rsm ∧ t.out.events = w.out.events))

/-- 43_pipeline.md section 2, DG.SINGLE: FECEngine does what FEC.PROCESS does; the payload is emitted at once, under the
type embedded in its first byte if it has one, unless the number is in the dedup window; no buffer but type 0's, which a
recovered packet may extend, changes. -/
def Obligations.DgSingleEmitsItsPayload : Prop :=
  ∀ (s : State) (seq : SeqNum) (type : UnitType) (gid : GroupId) (payload : Bytes),
    payload.length ≤ s.cfg.maxPayload →
    ∃ v rec t, exec (.fecProcess ⟨seq, false, true, true, type, gid, payload⟩) s = .next v ∧
      v.out.result = .recovered rec ∧
      exec (.dgSingle seq type gid payload) s = .next t ∧
      t.fec = v.fec ∧ t.cfg = s.cfg ∧ t.input = s.input ∧ t.out.result = .nothing ∧
      (seq ∉ s.rsm.dw →
        t.out.units = [⟨(payload.head?.map (fun b => b.extractLsb' 0 5)).getD type, payload⟩] ∧
        t.rsm.unitsReassembled = satInc s.cfg s.rsm.unitsReassembled) ∧
      (seq ∈ s.rsm.dw → t.out.units = [] ∧ t.rsm.unitsReassembled = s.rsm.unitsReassembled) ∧
      (∀ T, T ≠ 0 → mapGet t.rsm.fb T = mapGet s.rsm.fb T) ∧
      (rec = [] → t.rsm.fb = s.rsm.fb)

/-- 43_pipeline.md section 2, DG.START: FECEngine does what FEC.PROCESS does; a new buffer of the type holds the payload,
whatever was open before; over the cap none is open and EV_BUF_OVERFLOW is raised; a duplicate changes no buffer. Type 0's
buffer is said only when nothing was recovered. -/
def Obligations.DgStartOpensItsBuffer : Prop :=
  ∀ (s : State) (seq : SeqNum) (type : UnitType) (gid : GroupId) (payload : Bytes),
    payload.length ≤ s.cfg.maxPayload →
    ∃ v rec t, exec (.fecProcess ⟨seq, false, true, false, type, gid, payload⟩) s = .next v ∧
      v.out.result = .recovered rec ∧
      exec (.dgStart seq type gid payload) s = .next t ∧
      t.fec = v.fec ∧ t.cfg = s.cfg ∧ t.input = s.input ∧ t.out.units = [] ∧ t.out.result = .nothing ∧
      t.rsm.unitsReassembled = s.rsm.unitsReassembled ∧
      (∀ T, T ≠ type → T ≠ 0 → mapGet t.rsm.fb T = mapGet s.rsm.fb T) ∧
      (type ≠ 0 ∨ rec = [] →
        (seq ∉ s.rsm.dw → payload.length ≤ s.cfg.fragBufCap → mapGet t.rsm.fb type = some payload) ∧
        (seq ∉ s.rsm.dw → s.cfg.fragBufCap < payload.length →
          mapGet t.rsm.fb type = none ∧ .bufOverflow seq type ∈ t.out.events) ∧
        (seq ∈ s.rsm.dw → mapGet t.rsm.fb type = mapGet s.rsm.fb type))

/-- 43_pipeline.md section 2, DG.MID: FECEngine does what FEC.PROCESS does; the payload is appended to the open buffer of
the type; with none open the packet is an orphan; over the cap the buffer closes. Type 0's buffer is said only when nothing
was recovered. -/
def Obligations.DgMidAppendsToItsBuffer : Prop :=
  ∀ (s : State) (seq : SeqNum) (type : UnitType) (gid : GroupId) (payload : Bytes),
    payload.length ≤ s.cfg.maxPayload →
    ∃ v rec t, exec (.fecProcess ⟨seq, false, false, false, type, gid, payload⟩) s = .next v ∧
      v.out.result = .recovered rec ∧
      exec (.dgMid seq type gid payload) s = .next t ∧
      t.fec = v.fec ∧ t.cfg = s.cfg ∧ t.input = s.input ∧ t.out.units = [] ∧ t.out.result = .nothing ∧
      t.rsm.unitsReassembled = s.rsm.unitsReassembled ∧
      (∀ T, T ≠ type → T ≠ 0 → mapGet t.rsm.fb T = mapGet s.rsm.fb T) ∧
      (seq ∉ s.rsm.dw → mapGet s.rsm.fb type = none → .orphan seq type .middle ∈ t.out.events) ∧
      (type ≠ 0 ∨ rec = [] →
        (∀ buf, seq ∉ s.rsm.dw → mapGet s.rsm.fb type = some buf →
          (buf.length + payload.length ≤ s.cfg.fragBufCap → mapGet t.rsm.fb type = some (buf ++ payload)) ∧
          (s.cfg.fragBufCap < buf.length + payload.length →
            mapGet t.rsm.fb type = none ∧ .bufOverflow seq type ∈ t.out.events)) ∧
        (seq ∈ s.rsm.dw ∨ mapGet s.rsm.fb type = none → mapGet t.rsm.fb type = mapGet s.rsm.fb type))

/-- 43_pipeline.md section 2, DG.END: FECEngine does what FEC.PROCESS does; the open buffer and the payload are emitted as
one unit, under the type embedded in its first byte if it has one, and the buffer closes; with none open the packet is an
orphan; over the cap the buffer closes and nothing is emitted; a duplicate emits nothing. -/
def Obligations.DgEndEmitsItsBuffer : Prop :=
  ∀ (s : State) (seq : SeqNum) (type : UnitType) (gid : GroupId) (payload : Bytes),
    payload.length ≤ s.cfg.maxPayload →
    ∃ v t, exec (.fecProcess ⟨seq, false, false, true, type, gid, payload⟩) s = .next v ∧
      exec (.dgEnd seq type gid payload) s = .next t ∧
      t.fec = v.fec ∧ t.cfg = s.cfg ∧ t.input = s.input ∧ t.out.result = .nothing ∧
      (∀ T, T ≠ type → T ≠ 0 → mapGet t.rsm.fb T = mapGet s.rsm.fb T) ∧
      (∀ buf, seq ∉ s.rsm.dw → mapGet s.rsm.fb type = some buf →
        mapGet t.rsm.fb type = none ∧
        (buf.length + payload.length ≤ s.cfg.fragBufCap →
          t.out.units = [⟨((buf ++ payload).head?.map (fun b => b.extractLsb' 0 5)).getD type, buf ++ payload⟩] ∧
          t.rsm.unitsReassembled = satInc s.cfg s.rsm.unitsReassembled) ∧
        (s.cfg.fragBufCap < buf.length + payload.length →
          t.out.units = [] ∧ .bufOverflow seq type ∈ t.out.events ∧
          t.rsm.unitsReassembled = s.rsm.unitsReassembled)) ∧
      (seq ∉ s.rsm.dw → mapGet s.rsm.fb type = none →
        t.out.units = [] ∧ .orphan seq type .final ∈ t.out.events ∧
        t.rsm.unitsReassembled = s.rsm.unitsReassembled) ∧
      (seq ∈ s.rsm.dw → t.out.units = [] ∧ t.rsm.unitsReassembled = s.rsm.unitsReassembled)

/-- 70_reset_and_hazards.md section 3 (the late original, marked derived there): once a packet was recovered by RX, its
original, arriving next, is dropped as a duplicate. -/
def Obligations.RecoverySuppressesTheLateOriginal : Prop :=
  ∀ (s : State) (p q original : Packet), p.payload.length ≤ s.cfg.maxPayload →
    recoveredBy s.cfg s.fec p = some q →
    original.isFec = false → original.sequenceNumber = q.sequenceNumber →
    ∃ t, exec (.rx (serialize p)) s = .next t ∧
      exec (.rsmProcess original) t = .next
        { t with
          rsm := { t.rsm with packetsDeduplicated := satInc t.cfg t.rsm.packetsDeduplicated }
          out := ⟨[], [], .nothing⟩ }

/-! ## FECEngine (41_fec.md) -/

/-- The frame of FEC.PROCESS (41_fec.md sections 1, 2, 4 to 7, 9; 70_reset_and_hazards.md section 1; the counts, the stamp,
the first expectedCount and completion are the spec's own decisions D4, D5, D8, D9): it always completes, raises nothing,
emits nothing, returns at most one packet, writes nothing of the Reassembler, counts a recovery once and a created group
once, adds no group but its own, changes no other group, and ends at or below the ceiling; a created group, where it stays,
has the stamp birthCtr had, and one created by a media packet holds that packet alone, no redundancy packet, and expects
FEC_GROUP_SIZE. In a canonical table within the ceiling, no other group leaves or changes unless the packet creates a group
that stays incomplete in a full table, and a group created by a media packet where there is room is tracked afterwards unless
that one packet completes it. -/
def Obligations.FecProcessFrame : Prop :=
  ∀ (s : State) (p : Packet), ∃ t rec, exec (.fecProcess p) s = .next t ∧
    t.out = ⟨[], [], .recovered rec⟩ ∧ rec.length ≤ 1 ∧
    t.rsm = s.rsm ∧ t.cfg = s.cfg ∧ t.input = s.input ∧
    t.fec.recoveredCount = (if rec = [] then s.fec.recoveredCount else satInc s.cfg s.fec.recoveredCount) ∧
    t.fec.birthCtr = (if mapGet s.fec.grp p.groupId = none then s.fec.birthCtr + 1 else s.fec.birthCtr) ∧
    t.fec.grp.length ≤ s.cfg.maxGroups ∧
    (∀ e ∈ t.fec.grp, e.1 ≠ p.groupId → e ∈ s.fec.grp) ∧
    (mapGet s.fec.grp p.groupId = none → ∀ g, mapGet t.fec.grp p.groupId = some g →
      g.birth = s.fec.birthCtr ∧
      (p.isFec = false → g.media = [(p.sequenceNumber, p)] ∧ g.fec = none ∧ g.expectedCount = s.cfg.fecGroupSize)) ∧
    (mapWf s.fec.grp → s.fec.grp.length ≤ s.cfg.maxGroups →
      (mapGet s.fec.grp p.groupId ≠ none ∨
        (groupAfterStore s.cfg s.fec p).expectedCount.toNat ≤ (groupAfterStore s.cfg s.fec p).media.length ∨
        s.fec.grp.length < s.cfg.maxGroups) →
      ∀ k, k ≠ p.groupId → mapGet t.fec.grp k = mapGet s.fec.grp k) ∧
    (mapWf s.fec.grp → p.isFec = false → mapGet s.fec.grp p.groupId = none →
      s.fec.grp.length < s.cfg.maxGroups → 1 < s.cfg.fecGroupSize.toNat →
      mapGet t.fec.grp p.groupId =
        some ⟨[(p.sequenceNumber, p)], none, s.cfg.fecGroupSize, s.fec.birthCtr⟩)

/-- R112: after step 2 an FEC packet is its group's redundancy packet, replacing any before it, expectedCount is its count
as it is, and the media packets are those the group had. With room in the table and the count not reached (else sections 5
and 6 of 41_fec.md remove a group), that is what FEC.PROCESS leaves. -/
def Obligations.RedundancyPacketIsStored : Prop :=
  ∀ (s : State) (p : Packet) (media : Map 16 Packet), p.isFec = true →
    ((∃ g, mapGet s.fec.grp p.groupId = some g ∧ g.media = media) ∨
      (mapGet s.fec.grp p.groupId = none ∧ media = [])) →
    (groupAfterStore s.cfg s.fec p).fec = some p ∧
    (groupAfterStore s.cfg s.fec p).expectedCount = p.typeOrCount ∧
    (groupAfterStore s.cfg s.fec p).media = media ∧
    (mapWf s.fec.grp → s.fec.grp.length ≤ s.cfg.maxGroups →
      (mapGet s.fec.grp p.groupId = none → s.fec.grp.length < s.cfg.maxGroups) →
      media.length < p.typeOrCount.toNat →
      ∃ t g', exec (.fecProcess p) s = .next t ∧ mapGet t.fec.grp p.groupId = some g' ∧
        g'.fec = some p ∧ g'.expectedCount = p.typeOrCount ∧ g'.media = media)

/-- The spec's own decision D10 (41_fec.md section 3): a media packet is stored under its number if the number is absent
from its group; if it is present the packet stored first stays, however the two differ. Nothing else of the group changes.
Premises: the group is tracked and incomplete, the table canonical, and a packet of an absent number does not fill the
group (else 41_fec.md section 5 removes it). -/
def Obligations.FirstMediaPacketOfANumberIsKept : Prop :=
  ∀ (s : State) (p : Packet) (g : Group),
    mapWf s.fec.grp → s.fec.grp.length ≤ s.cfg.maxGroups → p.isFec = false →
    mapGet s.fec.grp p.groupId = some g → g.media.length < g.expectedCount.toNat →
    (mapGet g.media p.sequenceNumber = none → g.media.length + 1 < g.expectedCount.toNat) →
    ∃ t g', exec (.fecProcess p) s = .next t ∧ mapGet t.fec.grp p.groupId = some g' ∧
      g'.fec = g.fec ∧ g'.expectedCount = g.expectedCount ∧ g'.birth = g.birth ∧
      mapGet g'.media p.sequenceNumber = some ((mapGet g.media p.sequenceNumber).getD p) ∧
      (∀ k, k ≠ p.sequenceNumber → mapGet g'.media k = mapGet g.media k)

/-- R114: without a redundancy packet, or with any other number of media packets than `expectedCount - 1` (an integer, -1
for expectedCount 0), evaluated on the group as step 2 leaves it, nothing is recovered. -/
def Obligations.NoRecoveryUnlessOneIsMissing : Prop :=
  ∀ (s : State) (p : Packet),
    ((groupAfterStore s.cfg s.fec p).fec = none ∨
      ((groupAfterStore s.cfg s.fec p).media.length : Int) ≠
        ((groupAfterStore s.cfg s.fec p).expectedCount.toNat : Int) - 1) →
    ∃ t, exec (.fecProcess p) s = .next t ∧ t.out.result = .recovered [] ∧
      t.fec.recoveredCount = s.fec.recoveredCount

/-- 41_fec.md section 4 (the spec's own decisions D6, D7, D19 among its clauses): on the group as step 2 leaves it, a packet
is recovered exactly when a redundancy packet is present, the media count is one short, and exactly one number of the range
before the redundancy packet's is absent; it carries that number, no flags, type 0, the group's id, and at each position of
the redundancy payload the XOR of that payload and of every stored payload that has the position. -/
def Obligations.RecoveryOfTheOneMissingMember : Prop :=
  ∀ (s : State) (p : Packet), ∃ t rec, exec (.fecProcess p) s = .next t ∧ t.out.result = .recovered rec ∧
    ∀ q : Packet, rec = [q] ↔
      ∃ f x, (groupAfterStore s.cfg s.fec p).fec = some f ∧
        (groupAfterStore s.cfg s.fec p).media.length + 1 = (groupAfterStore s.cfg s.fec p).expectedCount.toNat ∧
        (∀ y, (∃ i, i < (groupAfterStore s.cfg s.fec p).expectedCount.toNat ∧
              y = f.sequenceNumber - BitVec.ofNat 16 (groupAfterStore s.cfg s.fec p).expectedCount.toNat
                + BitVec.ofNat 16 i) ∧
            mapGet (groupAfterStore s.cfg s.fec p).media y = none ↔ y = x) ∧
        q.sequenceNumber = x ∧ q.isFec = false ∧ q.isStart = false ∧ q.isEnd = false ∧ q.typeOrCount = 0 ∧
        q.groupId = p.groupId ∧
        q.payload.length = f.payload.length ∧
        ∀ (i : Nat) (h : i < f.payload.length), q.payload[i]? =
          some (f.payload[i] ^^^ xorAt i ((groupAfterStore s.cfg s.fec p).media.map (fun m => m.2.payload)))

/-- 41_fec.md section 8 (marked derived there): the recovered payload does not depend on the order in which the stored media
packets are visited, and keeps the length of the redundancy payload. -/
def Obligations.XorDoesNotDependOnTheOrder : Prop :=
  ∀ (parity : Bytes) (media media' : Map 16 Packet), media.Perm media' →
    combine parity media = combine parity media' ∧ (combine parity media).length = parity.length

/-- The spec's own decision D8 (41_fec.md section 4): a recovery is not entered in its group, so while the group stays
tracked the same packet, presented again, recovers the same packet again, counts again, and leaves the table as it is. -/
def Obligations.RecoveryRepeats : Prop :=
  ∀ (s t : State) (p q : Packet), Inv s → exec (.fecProcess p) s = .next t → t.out.result = .recovered [q] →
    mapGet t.fec.grp p.groupId ≠ none →
    ∃ u, exec (.fecProcess p) t = .next u ∧ u.out.result = .recovered [q] ∧ u.fec.grp = t.fec.grp ∧
      u.fec.recoveredCount = satInc s.cfg (satInc s.cfg s.fec.recoveredCount)

/-- The spec's own decision D5 (41_fec.md section 5): a group whose media count is at or above expectedCount after step 2 is
removed, whatever kind of packet came. -/
def Obligations.CompleteGroupIsRemoved : Prop :=
  ∀ (s : State) (p : Packet),
    (groupAfterStore s.cfg s.fec p).expectedCount.toNat ≤ (groupAfterStore s.cfg s.fec p).media.length →
    ∃ t, exec (.fecProcess p) s = .next t ∧ mapGet t.fec.grp p.groupId = none

/-- The spec's own decision D9 (41_fec.md section 6): when the table is full and a new group is created and stays
incomplete, exactly one group leaves, the one with the lowest groupId or the earliest created one, as EVICT_ORDER says; it
may be the new group itself. -/
def Obligations.EvictionRemovesTheVictim : Prop :=
  ∀ (s : State) (p : Packet), Inv s → mapGet s.fec.grp p.groupId = none → s.fec.grp.length = s.cfg.maxGroups →
    (groupAfterStore s.cfg s.fec p).media.length < (groupAfterStore s.cfg s.fec p).expectedCount.toNat →
    ∃ t v gv, exec (.fecProcess p) s = .next t ∧
      (v, gv) ∈ (p.groupId, groupAfterStore s.cfg s.fec p) :: s.fec.grp ∧
      mapGet t.fec.grp v = none ∧
      (∀ k, k ≠ v → mapGet t.fec.grp k = mapGet ((p.groupId, groupAfterStore s.cfg s.fec p) :: s.fec.grp) k) ∧
      (s.cfg.evictOrder = .numeric →
        ∀ e ∈ (p.groupId, groupAfterStore s.cfg s.fec p) :: s.fec.grp, v.toNat ≤ e.1.toNat) ∧
      (s.cfg.evictOrder = .creation →
        ∀ e ∈ (p.groupId, groupAfterStore s.cfg s.fec p) :: s.fec.grp, gv.birth ≤ e.2.birth)

/-- 70_reset_and_hazards.md section 3 (the groupId wrap): with numeric eviction and a full table of higher ids, a packet of
a new lower id leaves the table exactly as it was. -/
def Obligations.NumericEvictionStarvesALowNewGroup : Prop :=
  ∀ (s : State) (p : Packet), Inv s → s.cfg.evictOrder = .numeric → s.fec.grp.length = s.cfg.maxGroups →
    (∀ e ∈ s.fec.grp, p.groupId.toNat < e.1.toNat) →
    ∃ t, exec (.fecProcess p) s = .next t ∧ t.fec.grp = s.fec.grp

/-- 41_fec.md section 9 (XOR self-inverse) under the sender's contract; the spec's own decisions D4 (the first
expectedCount), D7 (the recovered groupId), D8 (one count per synthesis) and D19 (the recovered length, hence the zero bytes)
are among its clauses (log 13). If one member of a group of the configured size, FEC_GROUP_SIZE, is lost and the other members and the redundancy packet arrive in any order at a table that has room, FEC.PROCESS returns over
the whole run exactly one packet: the lost member's number, and its payload followed by zero bytes up to the length of the
redundancy payload; recoveredCount counts it once. -/
def Obligations.TheLostMemberIsRecovered : Prop :=
  ∀ (s : State) (gid : GroupId) (first : SeqNum) (members : List Packet) (parity : Packet) (j : Nat)
    (order : List Packet) (hj : j < members.length),
    SenderGroup gid first members parity → members.length = s.cfg.fecGroupSize.toNat →
    mapWf s.fec.grp → mapGet s.fec.grp gid = none → s.fec.grp.length < s.cfg.maxGroups →
    order.Perm (parity :: members.eraseIdx j) →
    ∃ t outs q, runCommands (order.map Instr.fecProcess) s = some (t, outs) ∧ recoveredOf outs = [q] ∧
      q.sequenceNumber = members[j].sequenceNumber ∧ q.groupId = gid ∧ q.isFec = false ∧
      q.payload = members[j].payload ++
        List.replicate (parity.payload.length - members[j].payload.length) 0 ∧
      t.fec.recoveredCount = satInc s.cfg s.fec.recoveredCount

/-- 41_fec.md section 9 (sequence wraparound): FECEngine does not see where the numbers of a group lie. Two states and two
packets that differ only in that every number is moved by the same amount, across 65535 or not, give the same recovered
payload, the recovered number moved too, and states that differ only so again. -/
def Obligations.MovingSequenceNumbersMovesTheRecovery : Prop :=
  ∀ (d : SeqNum) (s s' : State) (p : Packet), s'.cfg = s.cfg → ShiftedFec d s.fec s'.fec →
    ∃ t t' rec, exec (.fecProcess p) s = .next t ∧ exec (.fecProcess (shiftPacket d p)) s' = .next t' ∧
      t.out.result = .recovered rec ∧ t'.out.result = .recovered (rec.map (shiftPacket d)) ∧
      ShiftedFec d t.fec t'.fec

/-! ## Reassembler (42_reassembler.md) -/

/-- R151: an FEC packet changes nothing in the Reassembler and returns nothing. -/
def Obligations.ReassemblerIgnoresFecPackets : Prop :=
  ∀ (s : State) (p : Packet), p.isFec = true →
    exec (.rsmProcess p) s = .next { s with out := ⟨[], [], .nothing⟩ }

/-- R152: a packet whose number is in the window, whatever else it holds, is counted and nothing else happens. -/
def Obligations.DuplicateIsCountedAndDropped : Prop :=
  ∀ (s : State) (p : Packet), p.isFec = false → p.sequenceNumber ∈ s.rsm.dw →
    exec (.rsmProcess p) s = .next
      { s with
        rsm := { s.rsm with
          packetsDeduplicated :=
            if s.rsm.packetsDeduplicated < 2 ^ s.cfg.counterW - 1 then s.rsm.packetsDeduplicated + 1
            else s.rsm.packetsDeduplicated }
        out := ⟨[], [], .nothing⟩ }

/-- 42_reassembler.md section 3 (the trim is the spec's own decision D11) and section 4 (that lastSeq is set is its decision
D12): a new number is appended at the newest end whatever the packet's flags; when that passes the capacity, the older half,
rounded down, goes; the number becomes the last-seen one, and nothing counts as a duplicate. -/
def Obligations.NewNumberEntersTheWindow : Prop :=
  ∀ (s : State) (p : Packet), p.isFec = false → p.sequenceNumber ∉ s.rsm.dw →
    ∃ t, exec (.rsmProcess p) s = .next t ∧
      t.rsm.packetsDeduplicated = s.rsm.packetsDeduplicated ∧
      t.rsm.lastSeq = some p.sequenceNumber ∧
      (s.rsm.dw.length + 1 ≤ s.cfg.dedupCap → t.rsm.dw = s.rsm.dw ++ [p.sequenceNumber]) ∧
      (s.cfg.dedupCap < s.rsm.dw.length + 1 →
        t.rsm.dw = (s.rsm.dw ++ [p.sequenceNumber]).drop ((s.rsm.dw.length + 1) / 2)) ∧
      p.sequenceNumber ∈ t.rsm.dw

/-- R156: for a packet that passed the dedup check EV_SEQ_GAP is raised, once and first, exactly when there is a last-seen
number and the observed one is not its successor modulo 65536; for any other packet it is not raised. -/
def Obligations.SequenceGapIsReported : Prop :=
  ∀ (s : State) (p : Packet), ∃ t, exec (.rsmProcess p) s = .next t ∧
    (p.isFec = true ∨ p.sequenceNumber ∈ s.rsm.dw → t.out.events = []) ∧
    (p.isFec = false → p.sequenceNumber ∉ s.rsm.dw →
      ∃ rest, (∀ l l', .seqGap l l' ∉ rest) ∧
        (s.rsm.lastSeq = none → t.out.events = rest) ∧
        (∀ l, s.rsm.lastSeq = some l →
          (p.sequenceNumber.toNat = (l.toNat + 1) % 65536 → t.out.events = rest) ∧
          (p.sequenceNumber.toNat ≠ (l.toNat + 1) % 65536 →
            t.out.events = .seqGap l p.sequenceNumber :: rest)))

/-- R158: neither the last-seen number nor the packet's own number decides what becomes of a packet that passed the dedup
check: with any other last-seen number, and with any other number as new as its own, the units, the buffers and the counters
are the same (fragments are appended in arrival order); with its own number so is the window. -/
def Obligations.DiscontinuityIsReportOnly : Prop :=
  ∀ (s : State) (p : Packet) (x : SeqNum) (last : Option SeqNum),
    (x ∈ s.rsm.dw ↔ p.sequenceNumber ∈ s.rsm.dw) → ∃ t t',
      exec (.rsmProcess p) s = .next t ∧
      exec (.rsmProcess { p with sequenceNumber := x }) { s with rsm := { s.rsm with lastSeq := last } } = .next t' ∧
      t'.out.units = t.out.units ∧ t'.rsm.fb = t.rsm.fb ∧
      t'.rsm.unitsReassembled = t.rsm.unitsReassembled ∧ t'.rsm.packetsDeduplicated = t.rsm.packetsDeduplicated ∧
      (x = p.sequenceNumber → t'.rsm.dw = t.rsm.dw)

/-- 42_reassembler.md sections 5, 6 (the type is the spec's own decisions D13, D14): a new SINGLE packet is emitted at once;
the type embedded in a first byte wins over the header type, with a warning; no buffer is read or written. -/
def Obligations.SingleIsEmittedAtOnce : Prop :=
  ∀ (s : State) (p : Packet), p.isFec = false → p.isStart = true → p.isEnd = true → p.sequenceNumber ∉ s.rsm.dw →
    ∃ gap warn, exec (.rsmProcess p) s = .next
      { s with
        rsm := { s.rsm with
          dw := windowInsert s.cfg s.rsm.dw p.sequenceNumber
          lastSeq := some p.sequenceNumber
          unitsReassembled := satInc s.cfg s.rsm.unitsReassembled }
        out := ⟨[⟨(p.payload.head?.map (fun b => b.extractLsb' 0 5)).getD p.typeOrCount, p.payload⟩],
          gap ++ warn, .nothing⟩ } ∧
      gap = (gapWarning s.rsm.lastSeq p.sequenceNumber).toList ∧
      (p.payload = [] → warn = []) ∧
      (∀ b rest, p.payload = b :: rest →
        (b.toNat % 32 = p.typeOrCount.toNat → warn = []) ∧
        (b.toNat % 32 ≠ p.typeOrCount.toNat → warn = [.typeMismatch p.typeOrCount (b.extractLsb' 0 5)]))

/-- 42_reassembler.md section 5 (the spec's own decisions D15, D21): a new START packet replaces any open buffer of its type
by its payload, silently, and over the cap closes it with EV_BUF_OVERFLOW. -/
def Obligations.StartReplacesTheBuffer : Prop :=
  ∀ (s : State) (p : Packet), p.isFec = false → p.isStart = true → p.isEnd = false → p.sequenceNumber ∉ s.rsm.dw →
    ∃ t, exec (.rsmProcess p) s = .next t ∧ t.out.units = [] ∧ t.fec = s.fec ∧
      t.rsm.unitsReassembled = s.rsm.unitsReassembled ∧
      (p.payload.length ≤ s.cfg.fragBufCap →
        mapGet t.rsm.fb p.typeOrCount = some p.payload ∧
        t.out.events = (gapWarning s.rsm.lastSeq p.sequenceNumber).toList) ∧
      (s.cfg.fragBufCap < p.payload.length →
        mapGet t.rsm.fb p.typeOrCount = none ∧
        t.out.events = (gapWarning s.rsm.lastSeq p.sequenceNumber).toList ++
          [.bufOverflow p.sequenceNumber p.typeOrCount])

/-- 42_reassembler.md section 5 (the overflow is the spec's own decision D15): a new MID packet with an open buffer of its
type is appended to it and emits nothing; over the cap the buffer is closed with EV_BUF_OVERFLOW. -/
def Obligations.MiddleIsAppended : Prop :=
  ∀ (s : State) (p : Packet) (buf : Bytes), p.isFec = false → p.isStart = false → p.isEnd = false →
    p.sequenceNumber ∉ s.rsm.dw → mapGet s.rsm.fb p.typeOrCount = some buf →
    ∃ t gap, exec (.rsmProcess p) s = .next t ∧ t.out.units = [] ∧ t.fec = s.fec ∧
      gap = (gapWarning s.rsm.lastSeq p.sequenceNumber).toList ∧
      t.rsm.unitsReassembled = s.rsm.unitsReassembled ∧
      (buf.length + p.payload.length ≤ s.cfg.fragBufCap →
        mapGet t.rsm.fb p.typeOrCount = some (buf ++ p.payload) ∧ t.out.events = gap) ∧
      (s.cfg.fragBufCap < buf.length + p.payload.length →
        mapGet t.rsm.fb p.typeOrCount = none ∧
        t.out.events = gap ++ [.bufOverflow p.sequenceNumber p.typeOrCount])

/-- R163, R165: a new END or MID packet with no open buffer of its type is an orphan: reported with its number, type and
position, nothing emitted, buffers and counters unchanged, its number in the window and the last-seen one. -/
def Obligations.OrphanIsReportedAndDropped : Prop :=
  ∀ (s : State) (p : Packet), p.isFec = false → p.isStart = false → p.sequenceNumber ∉ s.rsm.dw →
    mapGet s.rsm.fb p.typeOrCount = none →
    ∃ t gap, exec (.rsmProcess p) s = .next t ∧ t.out.units = [] ∧
      (p.isEnd = true → t.out.events = gap ++ [.orphan p.sequenceNumber p.typeOrCount .final]) ∧
      (p.isEnd = false → t.out.events = gap ++ [.orphan p.sequenceNumber p.typeOrCount .middle]) ∧
      (∀ e ∈ gap, ∃ l, e = .seqGap l p.sequenceNumber) ∧
      t.rsm.fb = s.rsm.fb ∧ t.rsm.unitsReassembled = s.rsm.unitsReassembled ∧
      t.rsm.packetsDeduplicated = s.rsm.packetsDeduplicated ∧
      p.sequenceNumber ∈ t.rsm.dw ∧ t.rsm.lastSeq = some p.sequenceNumber ∧ t.fec = s.fec

/-- 42_reassembler.md sections 5, 6 (the type is the spec's own decisions D13, D14, the overflow D15): a new END packet with
an open buffer of its type emits buffer and payload as one unit and closes the buffer; the type embedded in the unit's first
byte wins over the header type, with EV_TYPE_MISMATCH exactly when they differ, and an empty unit raises none; over the cap it
closes the buffer with EV_BUF_OVERFLOW and emits nothing. -/
def Obligations.EndEmitsTheBuffer : Prop :=
  ∀ (s : State) (p : Packet) (buf : Bytes), p.isFec = false → p.isStart = false → p.isEnd = true →
    p.sequenceNumber ∉ s.rsm.dw → mapGet s.rsm.fb p.typeOrCount = some buf →
    ∃ t gap warn, exec (.rsmProcess p) s = .next t ∧ mapGet t.rsm.fb p.typeOrCount = none ∧ t.fec = s.fec ∧
      gap = (gapWarning s.rsm.lastSeq p.sequenceNumber).toList ∧
      (buf ++ p.payload = [] → warn = []) ∧
      (∀ b rest, buf ++ p.payload = b :: rest →
        (b.toNat % 32 = p.typeOrCount.toNat → warn = []) ∧
        (b.toNat % 32 ≠ p.typeOrCount.toNat → warn = [.typeMismatch p.typeOrCount (b.extractLsb' 0 5)])) ∧
      (buf.length + p.payload.length ≤ s.cfg.fragBufCap →
        t.out.units =
          [⟨((buf ++ p.payload).head?.map (fun b => b.extractLsb' 0 5)).getD p.typeOrCount, buf ++ p.payload⟩] ∧
        t.out.events = gap ++ warn ∧
        t.rsm.unitsReassembled = satInc s.cfg s.rsm.unitsReassembled) ∧
      (s.cfg.fragBufCap < buf.length + p.payload.length →
        t.out.units = [] ∧ t.out.events = gap ++ [.bufOverflow p.sequenceNumber p.typeOrCount] ∧
        t.rsm.unitsReassembled = s.rsm.unitsReassembled)

/-- 42_reassembler.md section 5 (orphan safety and interleaving of different types): RSM.PROCESS leaves the buffer of every
type but the packet's header type as it was, writes nothing of FECEngine, the parameters or the port, and returns no value. -/
def Obligations.OtherTypesBuffersAreUntouched : Prop :=
  ∀ (s : State) (p : Packet), ∃ t, exec (.rsmProcess p) s = .next t ∧
    t.fec = s.fec ∧ t.cfg = s.cfg ∧ t.input = s.input ∧ t.out.result = .nothing ∧
    ∀ T, T ≠ p.typeOrCount → mapGet t.rsm.fb T = mapGet s.rsm.fb T

/-- 42_reassembler.md section 8 (dedup idempotence): a packet processed twice in a row has one outcome: the second time
returns nothing, raises nothing, and only counts. -/
def Obligations.SecondCopyHasNoEffect : Prop :=
  ∀ (s : State) (p : Packet), p.isFec = false →
    ∃ t, exec (.rsmProcess p) s = .next t ∧
      exec (.rsmProcess p) t = .next
        { t with
          rsm := { t.rsm with packetsDeduplicated := satInc t.cfg t.rsm.packetsDeduplicated }
          out := ⟨[], [], .nothing⟩ }

/-- 42_reassembler.md section 8 (fragmented unit round-trip), with packets of other types interleaved in any way: a START,
any MID packets and an END of one type, with distinct numbers not in the window and a total length within the cap, give at
the END one unit whose data is the payloads in order of arrival; no packet of the type before it emits, whatever comes
between (outs holds one output for each packet run). The unit's type is the spec's own decisions D13, D14. -/
def Obligations.FragmentedUnitRoundTrip : Prop :=
  ∀ (s : State) (T : UnitType) (first last : Packet) (between : List Packet),
    first.isFec = false → first.isStart = true → first.isEnd = false → first.typeOrCount = T →
    last.isFec = false → last.isStart = false → last.isEnd = true → last.typeOrCount = T →
    (∀ m ∈ between, m.isFec = false ∧ (m.typeOrCount = T → m.isStart = false ∧ m.isEnd = false)) →
    ((first :: (between ++ [last])).map (fun m => m.sequenceNumber)).Nodup →
    (∀ m ∈ first :: (between ++ [last]), m.sequenceNumber ∉ s.rsm.dw) →
    ∀ data, data = first.payload ++
        (between.filter (fun m => m.typeOrCount == T)).flatMap (fun m => m.payload) ++ last.payload →
      data.length ≤ s.cfg.fragBufCap →
      ∃ t outs u, runCommands ((first :: between).map Instr.rsmProcess) s = some (t, outs) ∧
        exec (.rsmProcess last) t = .next u ∧
        u.out.units = [⟨(data.head?.map (fun b => b.extractLsb' 0 5)).getD T, data⟩] ∧
        mapGet u.rsm.fb T = none ∧
        outs.length = between.length + 1 ∧
        (∀ x ∈ (first :: between).zip outs, x.1.typeOrCount = T → x.2.units = []) ∧
        ((∀ m ∈ between, m.typeOrCount = T) → unitsOf outs = [])

/-! ## The whole machine -/

/-- The invariant holds after power-on. -/
def Obligations.PowerOnStateMeetsTheInvariant : Prop := Inv State.reset

/-- Every step keeps the invariant: the maps stay canonical, the table stays at or below its ceiling with every group
incomplete and consistent (10_state.md section 2), every buffer within the cap, the window without repeats and within its
capacity with the last-seen number its newest entry, the counters within their width (10_state.md sections 2, 3, 5). -/
def Obligations.EveryStepKeepsTheInvariant : Prop :=
  ∀ s t : State, Inv s → step s = .next t → Inv t

/-- 70_reset_and_hazards.md section 1: nothing but a reset of its engine makes a counter smaller. -/
def Obligations.OnlyResetsLowerCounters : Prop :=
  ∀ (i : Instr) (s t : State), exec i s = .next t →
    (i ≠ .reset → i ≠ .fecReset → s.fec.recoveredCount ≤ t.fec.recoveredCount) ∧
    (i ≠ .reset → i ≠ .rsmReset → s.rsm.unitsReassembled ≤ t.rsm.unitsReassembled ∧
      s.rsm.packetsDeduplicated ≤ t.rsm.packetsDeduplicated)

/-- 10_state.md section 5 and log 7: no operation writes a parameter, and none writes what is presented on the port. -/
def Obligations.ParametersAreNeverWritten : Prop :=
  ∀ (i : Instr) (s t : State), exec i s = .next t → t.cfg = s.cfg ∧ t.input = s.input

/-- 60_exceptions.md section 1 (decision D18) and log 6: nothing reads the output ports, events among them; the outcome of
every instruction is the same whatever they carried before. -/
def Obligations.OutputPortsAreNeverRead : Prop :=
  ∀ (i : Instr) (s : State) (out : Output), exec i { s with out := out } = exec i s

/-- 60_exceptions.md section 4: what one packet can report: nothing for an FEC packet or a duplicate; else EV_SEQ_GAP at
most once and first, then at most one of EV_ORPHAN, EV_BUF_OVERFLOW, EV_TYPE_MISMATCH. -/
def Obligations.EventsComeInTheOrderOfTheChecks : Prop :=
  ∀ (s : State) (p : Packet), ∃ t gap tail, exec (.rsmProcess p) s = .next t ∧ t.out.events = gap ++ tail ∧
    gap.length ≤ 1 ∧ tail.length ≤ 1 ∧
    (∀ e ∈ gap, ∃ l, e = .seqGap l p.sequenceNumber) ∧
    (∀ e ∈ tail, (∃ pos, e = .orphan p.sequenceNumber p.typeOrCount pos) ∨
      e = .bufOverflow p.sequenceNumber p.typeOrCount ∨ ∃ emb, e = .typeMismatch p.typeOrCount emb) ∧
    (p.isFec = true ∨ p.sequenceNumber ∈ s.rsm.dw → t.out.events = [])

/-- 60_exceptions.md section 2 (the spec's own decision D18): the code and the 32-bit information word of every event. -/
def Obligations.EventWordsHoldTheirFields : Prop :=
  (∀ len, len < 4 → (Event.malformed len).code = 0x01 ∧ (Event.malformed len).info.toNat = len) ∧
  (∀ (seq : SeqNum) (type : UnitType) (pos : FragmentPos),
    (Event.orphan seq type pos).code = 0x02 ∧
    (Event.orphan seq type pos).info.toNat =
      seq.toNat * 65536 + type.toNat * 256 + (match pos with | .middle => 0 | .final => 1)) ∧
  (∀ last seq : SeqNum, (Event.seqGap last seq).code = 0x03 ∧
    (Event.seqGap last seq).info.toNat = last.toNat * 65536 + seq.toNat) ∧
  (∀ hdr emb : UnitType, (Event.typeMismatch hdr emb).code = 0x04 ∧
    (Event.typeMismatch hdr emb).info.toNat = hdr.toNat * 256 + emb.toNat) ∧
  (∀ (seq : SeqNum) (type : UnitType), (Event.bufOverflow seq type).code = 0x05 ∧
    (Event.bufOverflow seq type).info.toNat = seq.toNat * 65536 + type.toNat * 256)
end

