-- ==== Sys2Proof/Laws/Codec.lean ====
section
/-! SUPPORT. What PARSE and SERIALIZE do, once (40_codec.md): every later proof cites these. -/

namespace Sys2Proof

/-- PARSE of a datagram whose header bytes are known (30_encoding.md R63). -/
theorem parse_cons (b0 b1 b2 b3 : Byte) (payload : Bytes) :
    parse (b0 :: b1 :: b2 :: b3 :: payload) = some
      { sequenceNumber := b0 ++ b1, isFec := b2.getLsbD 7, isStart := b2.getLsbD 6, isEnd := b2.getLsbD 5,
        typeOrCount := lowFive b2, groupId := b3, payload := payload } := by
  simp [parse, memRead1, memRead2, Config.hdrLen]

/-- A datagram of at least four bytes, by its bytes. -/
theorem datagram_cases (dg : Bytes) :
    dg.length < 4 ∨ ∃ b0 b1 b2 b3 payload, dg = b0 :: b1 :: b2 :: b3 :: payload := by
  match dg with
  | [] => simp
  | [_] => simp
  | [_, _] => simp
  | [_, _, _] => simp
  | b0 :: b1 :: b2 :: b3 :: payload => exact .inr ⟨b0, b1, b2, b3, payload, rfl⟩

/-- MalformedPacket, exactly for a datagram shorter than the header (40_codec.md R91). -/
theorem parse_eq_none_iff {dg : Bytes} : parse dg = none ↔ dg.length < 4 := by
  rcases datagram_cases dg with h | ⟨b0, b1, b2, b3, payload, rfl⟩
  · simp [parse, Config.hdrLen, h]
  · simp [parse_cons]

/-- The four bytes SERIALIZE writes before the payload (30_encoding.md R64). -/
theorem header_eq (p : Packet) :
    header p = [p.sequenceNumber.extractLsb' 8 8, p.sequenceNumber.extractLsb' 0 8,
      flagsByte p.isFec p.isStart p.isEnd p.typeOrCount, p.groupId] := rfl

theorem serialize_length (p : Packet) : (serialize p).length = 4 + p.payload.length := by
  simp [serialize, header_eq]; omega

theorem seq_split (v : SeqNum) : (v.extractLsb' 8 8 ++ v.extractLsb' 0 8 : BitVec 16) = v := by
  ext i hi; simp only [BitVec.getElem_append, BitVec.getElem_extractLsb']
  split
  · rw [Nat.zero_add]; exact BitVec.getLsbD_eq_getElem hi
  · next h => rw [show 8 + (i - 8) = i by omega]; exact BitVec.getLsbD_eq_getElem hi

theorem flagsByte_bits (f s e : Bool) (t : UnitType) :
    (flagsByte f s e t).getLsbD 7 = f ∧ (flagsByte f s e t).getLsbD 6 = s ∧ (flagsByte f s e t).getLsbD 5 = e ∧
      lowFive (flagsByte f s e t) = t := by
  revert f s e t; decide

theorem flagsByte_of_bits (b : Byte) :
    flagsByte (b.getLsbD 7) (b.getLsbD 6) (b.getLsbD 5) (lowFive b) = b := by
  revert b; decide

theorem hi_of_append (a b : Byte) : (a ++ b : BitVec 16).extractLsb' 8 8 = a := by
  ext i hi
  rw [BitVec.getElem_extractLsb']
  exact (BitVec.getLsbD_append (x := a) (y := b)).trans (by simp [hi])

theorem lo_of_append (a b : Byte) : (a ++ b : BitVec 16).extractLsb' 0 8 = b := by
  ext i hi
  rw [BitVec.getElem_extractLsb']
  exact (BitVec.getLsbD_append (x := a) (y := b)).trans (by simp [hi])

/-- The big-endian length field gives its length back (log 3). -/
theorem lengthBytes_eq (n : Nat) :
    lengthBytes n = [(BitVec.ofNat 32 n).extractLsb' 24 8, (BitVec.ofNat 32 n).extractLsb' 16 8,
      (BitVec.ofNat 32 n).extractLsb' 8 8, (BitVec.ofNat 32 n).extractLsb' 0 8] := rfl

theorem word_split (v : BitVec 32) :
    (v.extractLsb' 24 8 ++ v.extractLsb' 16 8 ++ v.extractLsb' 8 8 ++ v.extractLsb' 0 8 : BitVec 32) = v := by
  ext i hi
  simp only [BitVec.getElem_append, BitVec.getElem_extractLsb']
  split
  · rw [Nat.zero_add]; exact BitVec.getLsbD_eq_getElem hi
  · split
    · rw [show 8 + (i - 8) = i by omega]; exact BitVec.getLsbD_eq_getElem hi
    · split
      · rw [show 16 + (i - 8 - 8) = i by omega]; exact BitVec.getLsbD_eq_getElem hi
      · rw [show 24 + (i - 8 - 8 - 8) = i by omega]; exact BitVec.getLsbD_eq_getElem hi

end Sys2Proof
end

