-- ==== Sys2Proof/Laws/Maps.lean ====
section
/-! SUPPORT. The laws of the finite maps: read after write, what a write leaves alone, and that every operation keeps the
canonical form. -/

namespace Sys2Proof.Machine

variable {w : Nat} {α : Type}

/-! ## Lookup -/

@[simp] theorem mapGet_nil (k : BitVec w) : mapGet ([] : Map w α) k = none := rfl

theorem mapGet_cons (c : BitVec w × α) (m : Map w α) (k : BitVec w) :
    mapGet (c :: m) k = if k = c.1 then some c.2 else mapGet m k := rfl

theorem mapGet_mem {m : Map w α} {k : BitVec w} {v : α} (h : mapGet m k = some v) : (k, v) ∈ m := by
  induction m with
  | nil => simp at h
  | cons c m ih =>
    rw [mapGet_cons] at h
    split at h
    · next hk => obtain ⟨a, b⟩ := c; simp_all
    · exact List.mem_cons_of_mem _ (ih h)

theorem mapGet_eq_none_iff {m : Map w α} {k : BitVec w} : mapGet m k = none ↔ ∀ e ∈ m, e.1 ≠ k := by
  induction m with
  | nil => simp
  | cons c m ih =>
    rw [mapGet_cons]
    split
    · next hk => simp [hk]
    · next hk => simp [ih, Ne.symm hk]

/-- In canonical form a listed pair is what lookup finds. -/
theorem mapGet_of_mem {m : Map w α} (hm : mapWf m) {k : BitVec w} {v : α} (h : (k, v) ∈ m) : mapGet m k = some v := by
  induction m with
  | nil => simp at h
  | cons c m ih =>
    rw [mapGet_cons]
    obtain ⟨hc, hm'⟩ := List.pairwise_cons.mp hm
    rcases List.mem_cons.mp h with rfl | h'
    · simp
    · have := hc _ h'
      rw [if_neg (by rintro rfl; simp at this)]
      exact ih hm' h'

theorem mapHas_iff {m : Map w α} {k : BitVec w} : mapHas m k = true ↔ ∃ e ∈ m, e.1 = k := by
  rw [mapHas, Option.isSome_iff_ne_none, Ne, mapGet_eq_none_iff]
  simp

/-! ## Insertion -/

@[simp] theorem mapGet_mapSet_same (m : Map w α) (k : BitVec w) (v : α) : mapGet (mapSet m k v) k = some v := by
  induction m with
  | nil => simp [mapSet, mapGet]
  | cons c m ih =>
    simp only [mapSet]
    split
    · simp [mapGet]
    · split
      · simp [mapGet]
      · next hk _ => simp [mapGet_cons, hk, ih]

theorem mapGet_mapSet_other (m : Map w α) {k j : BitVec w} (v : α) (h : j ≠ k) :
    mapGet (mapSet m k v) j = mapGet m j := by
  induction m with
  | nil => simp [mapSet, mapGet, h]
  | cons c m ih =>
    simp only [mapSet]
    split
    · next hk => simp [mapGet_cons, h, ← hk]
    · split
      · simp [mapGet_cons, h]
      · simp [mapGet_cons, ih]

theorem mem_mapSet {m : Map w α} {k : BitVec w} {v : α} {e : BitVec w × α} (h : e ∈ mapSet m k v) :
    e = (k, v) ∨ e ∈ m := by
  induction m with
  | nil => simpa [mapSet] using h
  | cons c m ih =>
    simp only [mapSet] at h
    split at h
    · rcases List.mem_cons.mp h with h | h
      · exact .inl h
      · exact .inr (List.mem_cons_of_mem _ h)
    · split at h
      · rcases List.mem_cons.mp h with h | h
        · exact .inl h
        · exact .inr h
      · rcases List.mem_cons.mp h with h | h
        · exact .inr (h ▸ List.mem_cons_self)
        · exact (ih h).imp id (List.mem_cons_of_mem _)

theorem mapWf_mapSet {m : Map w α} (hm : mapWf m) (k : BitVec w) (v : α) : mapWf (mapSet m k v) := by
  induction m with
  | nil => simp [mapSet, mapWf]
  | cons c m ih =>
    obtain ⟨hc, hm'⟩ := List.pairwise_cons.mp hm
    simp only [mapSet]
    split
    · next hk => subst hk; exact List.pairwise_cons.mpr ⟨hc, hm'⟩
    · next hk =>
      split
      · next hlt =>
        refine List.pairwise_cons.mpr ⟨fun e he => ?_, hm⟩
        rcases List.mem_cons.mp he with rfl | he
        · exact hlt
        · exact Nat.lt_trans hlt (hc e he)
      · next hlt =>
        refine List.pairwise_cons.mpr ⟨fun e he => ?_, ih hm'⟩
        rcases mem_mapSet he with rfl | he
        · have : k.toNat ≠ c.1.toNat := fun h => hk (BitVec.eq_of_toNat_eq h)
          show c.1.toNat < k.toNat
          omega
        · exact hc e he

/-- Inserting an absent key adds one entry. -/
theorem length_mapSet_absent {m : Map w α} {k : BitVec w} (h : mapGet m k = none) (v : α) :
    (mapSet m k v).length = m.length + 1 := by
  induction m with
  | nil => rfl
  | cons c m ih =>
    rw [mapGet_cons] at h
    split at h
    · simp at h
    · next hk =>
      simp only [mapSet, hk, if_false]
      split
      · rfl
      · simp [ih h]

/-- Replacing a present key adds none, in canonical form. -/
theorem length_mapSet_present {m : Map w α} (hm : mapWf m) {k : BitVec w} {v' : α} (h : mapGet m k = some v') (v : α) :
    (mapSet m k v).length = m.length := by
  induction m with
  | nil => simp at h
  | cons c m ih =>
    obtain ⟨hc, hm'⟩ := List.pairwise_cons.mp hm
    rw [mapGet_cons] at h
    split at h
    · next hk => simp [mapSet, hk]
    · next hk =>
      have := hc _ (mapGet_mem h)
      simp only [mapSet, hk, if_false]
      rw [if_neg (by simp at this; omega)]
      simp [ih hm' h]

/-! ## Removal -/

@[simp] theorem mapGet_mapDel_same (m : Map w α) (k : BitVec w) : mapGet (mapDel m k) k = none := by
  rw [mapGet_eq_none_iff]
  intro e he
  simpa [mapDel] using (List.mem_filter.mp he).2

theorem mapGet_mapDel_other (m : Map w α) {k j : BitVec w} (h : j ≠ k) : mapGet (mapDel m k) j = mapGet m j := by
  induction m with
  | nil => rfl
  | cons c m ih =>
    rw [mapGet_cons, mapDel, List.filter_cons]
    split
    · rw [mapGet_cons]; split
      · rfl
      · exact ih
    · next hk =>
      have hk' : c.1 = k := by simpa using hk
      rw [if_neg (by rw [hk']; exact h)]
      exact ih

theorem mem_mapDel {m : Map w α} {k : BitVec w} {e : BitVec w × α} : e ∈ mapDel m k ↔ e ∈ m ∧ e.1 ≠ k := by
  simp [mapDel]

theorem mapWf_mapDel {m : Map w α} (hm : mapWf m) (k : BitVec w) : mapWf (mapDel m k) := List.Pairwise.filter _ hm

theorem length_mapDel_le (m : Map w α) (k : BitVec w) : (mapDel m k).length ≤ m.length := List.length_filter_le _ _

/-- Removing a present key removes at least one entry. -/
theorem length_mapDel_lt {m : Map w α} {k : BitVec w} {e : BitVec w × α} (he : e ∈ m) (hk : e.1 = k) :
    (mapDel m k).length < m.length := by
  rw [mapDel, List.length_filter_lt_length_iff_exists]
  exact ⟨e, he, by simp [hk]⟩

/-- Removing what was just inserted leaves what was there before, when it was absent. -/
theorem mapDel_mapSet_absent {m : Map w α} {k : BitVec w} (h : mapGet m k = none) (v : α) :
    mapDel (mapSet m k v) k = m := by
  induction m with
  | nil => simp [mapSet, mapDel]
  | cons c m ih =>
    have hne := mapGet_eq_none_iff.mp h
    have hc : c.1 ≠ k := hne c List.mem_cons_self
    have hrest : mapGet m k = none := mapGet_eq_none_iff.mpr fun e he => hne e (List.mem_cons_of_mem _ he)
    have hdel : mapDel m k = m := List.filter_eq_self.mpr fun e he => by
      simpa using hne e (List.mem_cons_of_mem _ he)
    simp only [mapSet, Ne.symm hc, if_false]
    split
    · simp only [mapDel, List.filter_cons, bne_self_eq_false, Bool.false_eq_true, if_false]
      rw [if_pos (by simpa using hc)]
      exact congrArg _ hdel
    · rw [mapDel, List.filter_cons, if_pos (by simpa using hc)]
      exact congrArg _ (ih hrest)

/-! ## Equal lookups, equal maps -/

/-- Two maps in canonical form with the same lookups are the same data. -/
theorem map_ext {m m' : Map w α} (hm : mapWf m) (hm' : mapWf m') (h : ∀ k, mapGet m k = mapGet m' k) : m = m' := by
  have nd : ∀ {m : Map w α}, mapWf m → m.Nodup := fun h => h.imp fun hab => by
    rintro rfl; exact Nat.lt_irrefl _ hab
  have hp : m.Perm m' := by
    rw [List.perm_ext_iff_of_nodup (nd hm) (nd hm')]
    rintro ⟨k, v⟩
    exact ⟨fun hk => mapGet_mem ((h k).symm.trans (mapGet_of_mem hm hk)),
      fun hk => mapGet_mem ((h k).trans (mapGet_of_mem hm' hk))⟩
  refine List.Perm.eq_of_pairwise (le := fun a b => a.1.toNat ≤ b.1.toNat) ?_ (hm.imp Nat.le_of_lt)
    (hm'.imp Nat.le_of_lt) hp
  intro a b ha hb hab hba
  have e1 := mapGet_of_mem hm ha
  have e2 := mapGet_of_mem hm' hb
  have hk : a.1 = b.1 := BitVec.eq_of_toNat_eq (Nat.le_antisymm hab hba)
  rw [h, hk, e2] at e1
  exact Prod.ext hk (Option.some.inj e1).symm

/-! ## The least element -/

theorem argmin_mem {f : α → Nat} {l : List α} {a : α} (h : argmin f l = some a) : a ∈ l := by
  induction l generalizing a with
  | nil => simp [argmin] at h
  | cons b l ih =>
    simp only [argmin] at h
    split at h
    · simp_all
    · next c hc =>
      split at h
      · exact List.mem_cons_of_mem _ (ih (hc.trans h))
      · simp_all

theorem argmin_le {f : α → Nat} {l : List α} {a : α} (h : argmin f l = some a) : ∀ b ∈ l, f a ≤ f b := by
  induction l generalizing a with
  | nil => simp
  | cons b l ih =>
    simp only [argmin] at h
    split at h
    · next hn =>
      have : l = [] := by
        cases l with
        | nil => rfl
        | cons c l =>
          simp only [argmin] at hn
          split at hn
          · simp at hn
          · split at hn <;> simp at hn
      simp_all
    · next c hc =>
      have hle := ih hc
      intro d hd
      split at h <;> (cases h; rcases List.mem_cons.mp hd with rfl | hd)
      · omega
      · exact hle d hd
      · exact Nat.le_refl _
      · have := hle d hd; omega

theorem argmin_eq_none {f : α → Nat} {l : List α} : argmin f l = none ↔ l = [] := by
  cases l with
  | nil => simp [argmin]
  | cons b l =>
    simp only [argmin]
    split
    · simp
    · split <;> simp

end Sys2Proof.Machine
end

