-- ==== Sys2Proof/Laws/State.lean ====
section
/-! SUPPORT. One lemma per field per update, so that no later proof unfolds a record update. -/

namespace Sys2Proof.Machine

section
variable (s : State) (o : Output) (f : FecState) (r : RsmState) (fs : List Frame)

@[simp] theorem State.withOut_cfg : (s.withOut o).cfg = s.cfg := rfl
@[simp] theorem State.withOut_fec : (s.withOut o).fec = s.fec := rfl
@[simp] theorem State.withOut_rsm : (s.withOut o).rsm = s.rsm := rfl
@[simp] theorem State.withOut_input : (s.withOut o).input = s.input := rfl
@[simp] theorem State.withOut_out : (s.withOut o).out = o := rfl
@[simp] theorem State.withOut_withOut (o' : Output) : (s.withOut o).withOut o' = s.withOut o' := rfl

@[simp] theorem State.withFec_cfg : (s.withFec f).cfg = s.cfg := rfl
@[simp] theorem State.withFec_fec : (s.withFec f).fec = f := rfl
@[simp] theorem State.withFec_rsm : (s.withFec f).rsm = s.rsm := rfl
@[simp] theorem State.withFec_input : (s.withFec f).input = s.input := rfl
@[simp] theorem State.withFec_out : (s.withFec f).out = s.out := rfl

@[simp] theorem State.withRsm_cfg : (s.withRsm r).cfg = s.cfg := rfl
@[simp] theorem State.withRsm_fec : (s.withRsm r).fec = s.fec := rfl
@[simp] theorem State.withRsm_rsm : (s.withRsm r).rsm = r := rfl
@[simp] theorem State.withRsm_input : (s.withRsm r).input = s.input := rfl
@[simp] theorem State.withRsm_out : (s.withRsm r).out = s.out := rfl

@[simp] theorem State.withInput_cfg : (s.withInput fs).cfg = s.cfg := rfl
@[simp] theorem State.withInput_fec : (s.withInput fs).fec = s.fec := rfl
@[simp] theorem State.withInput_rsm : (s.withInput fs).rsm = s.rsm := rfl
@[simp] theorem State.withInput_input : (s.withInput fs).input = fs := rfl
@[simp] theorem State.withInput_out : (s.withInput fs).out = s.out := rfl

@[simp] theorem present_input (fr : Frame) : (present s fr).input = fr :: s.input := rfl
@[simp] theorem present_cfg (fr : Frame) : (present s fr).cfg = s.cfg := rfl
@[simp] theorem present_fec (fr : Frame) : (present s fr).fec = s.fec := rfl
@[simp] theorem present_rsm (fr : Frame) : (present s fr).rsm = s.rsm := rfl
@[simp] theorem present_out (fr : Frame) : (present s fr).out = s.out := rfl
end

section
variable (o : Reassembly) (e : Event) (c : Config) (u : CodingUnit) (fb : Map 5 Bytes) (r : RsmState)

@[simp] theorem Reassembly.start_rsm : (Reassembly.start r).rsm = r := rfl
@[simp] theorem Reassembly.start_units : (Reassembly.start r).units = [] := rfl
@[simp] theorem Reassembly.start_events : (Reassembly.start r).events = [] := rfl

@[simp] theorem Reassembly.raise_rsm : (o.raise e).rsm = o.rsm := rfl
@[simp] theorem Reassembly.raise_units : (o.raise e).units = o.units := rfl
@[simp] theorem Reassembly.raise_events : (o.raise e).events = o.events ++ [e] := rfl

@[simp] theorem Reassembly.emitUnit_rsm :
    (o.emitUnit c u).rsm = { o.rsm with unitsReassembled := satInc c o.rsm.unitsReassembled } := rfl
@[simp] theorem Reassembly.emitUnit_units : (o.emitUnit c u).units = o.units ++ [u] := rfl
@[simp] theorem Reassembly.emitUnit_events : (o.emitUnit c u).events = o.events := rfl

@[simp] theorem Reassembly.setFb_rsm : (o.setFb fb).rsm = { o.rsm with fb := fb } := rfl
@[simp] theorem Reassembly.setFb_units : (o.setFb fb).units = o.units := rfl
@[simp] theorem Reassembly.setFb_events : (o.setFb fb).events = o.events := rfl

@[simp] theorem Reassembly.andThen_rsm (k : RsmState → Reassembly) : (o.andThen k).rsm = (k o.rsm).rsm := rfl
@[simp] theorem Reassembly.andThen_units (k : RsmState → Reassembly) :
    (o.andThen k).units = o.units ++ (k o.rsm).units := rfl
@[simp] theorem Reassembly.andThen_events (k : RsmState → Reassembly) :
    (o.andThen k).events = o.events ++ (k o.rsm).events := rfl
end

/-! ## The saturating increment (10_state.md R27) -/

theorem satInc_le_max {c : Config} {n : Nat} (h : n ≤ c.counterMax) : satInc c n ≤ c.counterMax := by
  unfold satInc; split <;> omega

theorem le_satInc (c : Config) (n : Nat) : n ≤ satInc c n := by
  unfold satInc; split <;> omega

theorem satInc_of_lt {c : Config} {n : Nat} (h : n < c.counterMax) : satInc c n = n + 1 := if_pos h

theorem satInc_of_max {c : Config} {n : Nat} (h : c.counterMax ≤ n) : satInc c n = n := if_neg (by omega)

end Sys2Proof.Machine
end

