-- ==== Sys2Proof/Laws/Fec.lean ====
section
/-! SUPPORT. What each step of FEC.PROCESS can do (41_fec.md), once: storing, recovering, combining, evicting, and the
invariant of FECEngine. -/

namespace Sys2Proof.Machine

/-! ## Steps 1 and 2 -/

theorem lookupOrCreate_present {c : Config} {f : FecState} {gid : GroupId} {g : Group} (h : mapGet f.grp gid = some g) :
    lookupOrCreate c f gid = g := by simp [lookupOrCreate, h]

theorem lookupOrCreate_absent {c : Config} {f : FecState} {gid : GroupId} (h : mapGet f.grp gid = none) :
    lookupOrCreate c f gid = freshGroup c f.birthCtr := by simp [lookupOrCreate, h]

theorem birthAfter_present {f : FecState} {gid : GroupId} {g : Group} (h : mapGet f.grp gid = some g) :
    birthAfter f gid = f.birthCtr := by simp [birthAfter, h]

theorem birthAfter_absent {f : FecState} {gid : GroupId} (h : mapGet f.grp gid = none) :
    birthAfter f gid = f.birthCtr + 1 := by simp [birthAfter, h]

theorem birthCtr_le_birthAfter (f : FecState) (gid : GroupId) : f.birthCtr ≤ birthAfter f gid := by
  unfold birthAfter; split <;> omega

theorem storePacket_fec {p : Packet} (h : p.isFec = true) (g : Group) :
    storePacket p g = { g with fec := some p, expectedCount := p.typeOrCount } := by simp [storePacket, h]

theorem storePacket_duplicate {p : Packet} (h : p.isFec = false) {g : Group} {m : Packet}
    (hk : mapGet g.media p.sequenceNumber = some m) : storePacket p g = g := by simp [storePacket, h, hk]

theorem storePacket_new {p : Packet} (h : p.isFec = false) {g : Group} (hk : mapGet g.media p.sequenceNumber = none) :
    storePacket p g = { g with media := mapSet g.media p.sequenceNumber p } := by simp [storePacket, h, hk]

@[simp] theorem storePacket_birth (p : Packet) (g : Group) : (storePacket p g).birth = g.birth := by
  unfold storePacket; split
  · rfl
  · split <;> rfl

/-! ## Step 3 -/

/-- The range lists the `n` numbers before `f` (30_encoding.md R77). -/
theorem mem_seqRange {f s : SeqNum} {n : Nat} :
    s ∈ seqRange f n ↔ ∃ i, i < n ∧ s = f - BitVec.ofNat 16 n + BitVec.ofNat 16 i := by
  simp [seqRange, eq_comm]

@[simp] theorem length_seqRange (f : SeqNum) (n : Nat) : (seqRange f n).length = n := by simp [seqRange]

/-- Its members are pairwise distinct, since `n <= 31 < 65536` (30_encoding.md R77). -/
theorem nodup_seqRange {f : SeqNum} {n : Nat} (h : n ≤ 65536) : (seqRange f n).Nodup := by
  refine List.Nodup.map_on ?_ List.nodup_range
  intro i hi j hj hij
  have hi := List.mem_range.mp hi
  have hj := List.mem_range.mp hj
  have := add_left_cancel hij
  have := congrArg BitVec.toNat this
  simp only [BitVec.toNat_ofNat] at this
  omega

theorem mem_missingMembers {f : Packet} {n : Nat} {media : Map 16 Packet} {s : SeqNum} :
    s ∈ missingMembers f n media ↔ s ∈ seqRange f.sequenceNumber n ∧ mapGet media s = none := by
  simp [missingMembers, mapHas]

/-- Everything step 3 can recover (41_fec.md R114, R116, R117, R118). -/
theorem recover_eq_some_iff {gid : GroupId} {g : Group} {q : Packet} :
    recover gid g = some q ↔ ∃ f s, g.fec = some f ∧ g.media.length + 1 = g.expectedCount.toNat ∧
      missingMembers f g.expectedCount.toNat g.media = [s] ∧
      q = recoveredPacket gid s (combine f.payload g.media) := by
  unfold recover
  cases hf : g.fec with
  | none => simp
  | some f =>
    simp only [Option.some.injEq, exists_and_left, exists_eq_left']
    split
    · next hn =>
      have hn' : g.media.length + 1 = g.expectedCount.toNat := by omega
      split
      · next s hs => simp [hs, hn', eq_comm]
      · next hs => simp; exact fun _ s h _ => hs s h
    · next hn => simp; intro h; omega

@[simp] theorem xorInto_length (acc m : Bytes) : (xorInto acc m).length = acc.length := by
  fun_induction xorInto acc m <;> simp_all

theorem xorInto_getElem? (acc m : Bytes) (i : Nat) (h : i < acc.length) :
    (xorInto acc m)[i]? = some (acc[i] ^^^ (m[i]?).getD 0#8) := by
  induction acc generalizing m i with
  | nil => simp at h
  | cons a acc ih =>
    cases m with
    | nil => simp [xorInto]
    | cons b m =>
      cases i with
      | zero => simp [xorInto]
      | succ i => simpa [xorInto] using ih m i (by simpa using h)

/-- The accumulator keeps the length of the redundancy payload (41_fec.md R117, R129). -/
@[simp] theorem combine_length (parity : Bytes) (media : Map 16 Packet) :
    (combine parity media).length = parity.length := by
  unfold combine
  induction media generalizing parity with
  | nil => rfl
  | cons m media ih => simp [ih]

/-- The closed form of 41_fec.md R117, byte by byte. -/
theorem combine_getElem? (parity : Bytes) (media : Map 16 Packet) (i : Nat) (h : i < parity.length) :
    (combine parity media)[i]? = some (parity[i] ^^^ xorAt i (media.map (fun m => m.2.payload))) := by
  unfold combine
  induction media generalizing parity with
  | nil => simp [xorAt, h]
  | cons m media ih =>
    have hl : i < (xorInto parity m.2.payload).length := by simpa using h
    have hx := xorInto_getElem? parity m.2.payload i h
    rw [List.getElem?_eq_getElem hl] at hx
    simp only [List.foldl_cons, List.map_cons]
    rw [ih _ hl, Option.some.inj hx]
    simp [xorAt, BitVec.xor_assoc]

/-- XOR at a position does not depend on the order (41_fec.md R128). -/
theorem xorAt_perm {i : Nat} {l l' : List Bytes} (h : l.Perm l') : xorAt i l = xorAt i l' := by
  unfold xorAt
  induction h with
  | nil => rfl
  | cons x _ ih => simp [ih]
  | swap x y l =>
    simp only [List.foldr_cons]
    rw [← BitVec.xor_assoc, ← BitVec.xor_assoc, BitVec.xor_comm ((y[i]?).getD 0#8)]
  | trans _ _ ih1 ih2 => exact ih1.trans ih2

/-- Nor does the combined payload. -/
theorem combine_perm (parity : Bytes) {m m' : Map 16 Packet}
    (h : (m.map (fun e => e.2.payload)).Perm (m'.map (fun e => e.2.payload))) :
    combine parity m = combine parity m' := by
  refine List.ext_getElem (by simp) fun i hi _ => ?_
  have hi' : i < parity.length := by simpa using hi
  have e1 := combine_getElem? parity m i hi'
  have e2 := combine_getElem? parity m' i hi'
  rw [xorAt_perm h, ← e2] at e1
  simpa [List.getElem?_eq_getElem, hi'] using e1

/-! ## Steps 4 and 5 -/

theorem victim_mem {o : EvictOrder} {grp : Map 8 Group} {v : GroupId} (h : victim o grp = some v) :
    ∃ e ∈ grp, e.1 = v := by
  cases o with
  | numeric =>
    obtain ⟨e, he, rfl⟩ := Option.map_eq_some_iff.mp h
    exact ⟨e, argmin_mem he, rfl⟩
  | creation =>
    obtain ⟨e, he, rfl⟩ := Option.map_eq_some_iff.mp h
    exact ⟨e, argmin_mem he, rfl⟩

theorem victim_eq_none_iff {o : EvictOrder} {grp : Map 8 Group} : victim o grp = none ↔ grp = [] := by
  cases o <;> simp [victim, argmin_eq_none]

/-- Eviction only removes groups, and never changes one. -/
theorem evictLoop_sublist (c : Config) (k : Nat) (grp : Map 8 Group) : (evictLoop c k grp).Sublist grp := by
  induction k generalizing grp with
  | zero => exact List.Sublist.refl _
  | succ k ih =>
    unfold evictLoop
    split
    · split
      · exact (ih _).trans List.filter_sublist
      · exact List.Sublist.refl _
    · exact List.Sublist.refl _

theorem evict_sublist (c : Config) (grp : Map 8 Group) : (evict c grp).Sublist grp := evictLoop_sublist c _ grp

/-- Below the ceiling nothing is evicted. -/
theorem evict_of_le {c : Config} {grp : Map 8 Group} (h : grp.length ≤ c.maxGroups) : evict c grp = grp := by
  unfold evict
  cases hk : grp.length with
  | zero => rfl
  | succ k => rw [evictLoop, if_neg (by omega)]

theorem evictLoop_length (c : Config) (k : Nat) (grp : Map 8 Group) (h : grp.length ≤ k + c.maxGroups) :
    (evictLoop c k grp).length ≤ c.maxGroups := by
  induction k generalizing grp with
  | zero => simpa [evictLoop] using h
  | succ k ih =>
    unfold evictLoop
    split
    · next hlt =>
      split
      · next v hv =>
        obtain ⟨e, he, hk⟩ := victim_mem hv
        have := length_mapDel_lt he hk
        exact ih _ (by omega)
      · next hv => rw [victim_eq_none_iff.mp hv]; exact Nat.zero_le _
    · omega

/-- After step 5 the ceiling holds, whatever the table was (41_fec.md R124). -/
theorem evict_length (c : Config) (grp : Map 8 Group) : (evict c grp).length ≤ c.maxGroups :=
  evictLoop_length c _ grp (by omega)

/-- One group over the ceiling: exactly the victim leaves (41_fec.md R122). -/
theorem evict_one_over {c : Config} {grp : Map 8 Group} (h : grp.length = c.maxGroups + 1) {v : GroupId}
    (hv : victim c.evictOrder grp = some v) : evict c grp = mapDel grp v := by
  obtain ⟨e, he, hk⟩ := victim_mem hv
  have hlt := length_mapDel_lt he hk
  unfold evict
  rw [h, evictLoop, if_pos (by omega), hv]
  simp only
  cases hm : c.maxGroups with
  | zero => rfl
  | succ k => rw [evictLoop, if_neg (by omega)]

theorem mapGet_evict {c : Config} {grp : Map 8 Group} (hw : mapWf grp) {gid : GroupId} {g : Group}
    (h : mapGet (evict c grp) gid = some g) : mapGet grp gid = some g :=
  mapGet_of_mem hw ((evict_sublist c grp).subset (mapGet_mem h))

theorem mapGet_evict_none {c : Config} {grp : Map 8 Group} {gid : GroupId} (h : mapGet grp gid = none) :
    mapGet (evict c grp) gid = none :=
  mapGet_eq_none_iff.mpr fun e he => mapGet_eq_none_iff.mp h e ((evict_sublist c grp).subset he)

/-! ## The invariant -/

/-- Steps 1 and 2 keep a group what 10_state.md R19 (c), (d) says, but for the count, which step 4 restores. -/
theorem groupAfterStore_ok {c : Config} {f : FecState} (hf : fecInv c f) (p : Packet) :
    let g := groupAfterStore c f p
    mapWf g.media ∧
    (∀ m ∈ g.media, m.2.sequenceNumber = m.1 ∧ m.2.isFec = false ∧ m.2.groupId = p.groupId) ∧
    (g.fec = none → g.expectedCount = c.fecGroupSize) ∧
    (∀ q ∈ g.fec.toList, q.groupId = p.groupId ∧ q.isFec = true ∧ g.expectedCount = q.typeOrCount) ∧
    g.birth < birthAfter f p.groupId := by
  obtain ⟨_, _, hall, _, _⟩ := hf
  have base : ∀ g, g = lookupOrCreate c f p.groupId → mapWf g.media ∧
      (∀ m ∈ g.media, m.2.sequenceNumber = m.1 ∧ m.2.isFec = false ∧ m.2.groupId = p.groupId) ∧
      (g.fec = none → g.expectedCount = c.fecGroupSize) ∧
      (∀ q ∈ g.fec.toList, q.groupId = p.groupId ∧ q.isFec = true ∧ g.expectedCount = q.typeOrCount) ∧
      g.birth < birthAfter f p.groupId := by
    rintro g rfl
    cases h : mapGet f.grp p.groupId with
    | none =>
      rw [lookupOrCreate_absent h, birthAfter_absent h]
      simp [freshGroup, mapWf]
    | some g =>
      rw [lookupOrCreate_present h, birthAfter_present h]
      obtain ⟨h1, _, h3, h4, h5, h6⟩ := hall _ (mapGet_mem h)
      exact ⟨h1, h3, h4, h5, h6⟩
  obtain ⟨h1, h3, h4, h5, h6⟩ := base _ rfl
  simp only [groupAfterStore]
  cases hp : p.isFec with
  | true =>
    rw [storePacket_fec hp]
    exact ⟨h1, h3, by simp, by simp [hp], h6⟩
  | false =>
    cases hk : mapGet (lookupOrCreate c f p.groupId).media p.sequenceNumber with
    | some m => rw [storePacket_duplicate hp hk]; exact ⟨h1, h3, h4, h5, h6⟩
    | none =>
      rw [storePacket_new hp hk]
      refine ⟨mapWf_mapSet h1 _ _, fun m hm => ?_, h4, h5, h6⟩
      rcases mem_mapSet hm with rfl | hm
      · exact ⟨rfl, hp, rfl⟩
      · exact h3 m hm

/-- The birth stamps stay distinct when the current group is stored back. -/
theorem births_nodup_store {c : Config} {f : FecState} (hf : fecInv c f) (p : Packet) :
    ((mapSet f.grp p.groupId (groupAfterStore c f p)).map (fun e => e.2.birth)).Nodup := by
  obtain ⟨hw, _, hall, hnd, _⟩ := hf
  have hw' := mapWf_mapSet hw p.groupId (groupAfterStore c f p)
  have hkeys : (mapSet f.grp p.groupId (groupAfterStore c f p)).Pairwise (fun a b => a.1 ≠ b.1) :=
    hw'.imp fun h hab => by rw [hab] at h; exact Nat.lt_irrefl _ h
  rw [List.Nodup, List.pairwise_map]
  refine hkeys.imp_of_mem fun {a b} ha hb hab => ?_
  have inj : ∀ e ∈ f.grp, ∀ e' ∈ f.grp, e.2.birth = e'.2.birth → e = e' := fun e he e' he' h =>
    List.inj_on_of_nodup_map hnd he he' h
  have key : ∀ e ∈ f.grp, e.1 ≠ p.groupId → e.2.birth ≠ (groupAfterStore c f p).birth := by
    intro e he hne heq
    simp only [groupAfterStore, storePacket_birth] at heq
    cases h : mapGet f.grp p.groupId with
    | none =>
      rw [lookupOrCreate_absent h] at heq
      have := (hall e he).2.2.2.2.2
      simp [freshGroup] at heq
      omega
    | some g =>
      rw [lookupOrCreate_present h] at heq
      exact hne (congrArg Prod.fst (inj e he _ (mapGet_mem h) heq))
  rcases mem_mapSet ha with rfl | ha' <;> rcases mem_mapSet hb with rfl | hb'
  · exact absurd rfl hab
  · exact fun h => key b hb' (Ne.symm hab) h.symm
  · exact fun h => key a ha' hab h
  · exact fun h => hab (congrArg Prod.fst (inj a ha' b hb' h))

/-- FEC.PROCESS keeps FECEngine's invariant (10_state.md R19; 41_fec.md R123, R124). -/
theorem fecStateAfter_inv {c : Config} {f : FecState} (hf : fecInv c f) (p : Packet) :
    fecInv c (fecStateAfter c f p) := by
  have hg := groupAfterStore_ok hf p
  have hn := births_nodup_store hf p
  obtain ⟨hw, hlen, hall, hnd, hcnt⟩ := hf
  have hw1 := mapWf_mapSet hw p.groupId (groupAfterStore c f p)
  have hsub : (grpAfterCompletion c f p).Sublist (mapSet f.grp p.groupId (groupAfterStore c f p)) := by
    unfold grpAfterCompletion; simp only
    split
    · exact List.filter_sublist
    · exact List.Sublist.refl _
  have hsub' := (evict_sublist c (grpAfterCompletion c f p)).trans hsub
  refine ⟨hw1.sublist hsub', evict_length _ _, fun e he => ?_, hn.sublist (hsub'.map _), ?_⟩
  · have he1 : e ∈ grpAfterCompletion c f p := (evict_sublist _ _).subset he
    rcases mem_mapSet (hsub.subset he1) with rfl | he2
    · obtain ⟨g1, g2, g3, g4, g5⟩ := hg
      refine ⟨g1, ?_, g2, g3, g4, g5⟩
      unfold grpAfterCompletion at he1; simp only at he1
      split at he1
      · exact absurd rfl (mem_mapDel.mp he1).2
      · next hc => simpa [isComplete] using hc
    · obtain ⟨h1, h2, h3, h4, h5, h6⟩ := hall e he2
      exact ⟨h1, h2, h3, h4, h5, Nat.lt_of_lt_of_le h6 (birthCtr_le_birthAfter f p.groupId)⟩
  · simp only [fecStateAfter]
    split
    · exact satInc_le_max hcnt
    · exact hcnt

end Sys2Proof.Machine
end

