-- ==== Sys2Proof/Laws/PerInstr.lean ====
section
/-! SUPPORT. A fact about every instruction as syntax: its frame carries the fixed bits of its row of
spec/opcode_table.json (30_encoding.md R66, R73). -/

namespace Sys2Proof.Laws.RowBits

open Sys2Proof

/-- The first byte of a command frame is the code; of a datagram frame, bits 7 to 5 of the third byte are the class. -/
def Statement : Instr → Prop
  | .dgFec seq a e n gid payload =>
    ∃ b0 b1 b2 rest, encode (.dgFec seq a e n gid payload) = .datagram (b0 :: b1 :: b2 :: rest) ∧
      b2.getLsbD 7 = true
  | .dgSingle seq t gid payload =>
    ∃ b0 b1 b2 rest, encode (.dgSingle seq t gid payload) = .datagram (b0 :: b1 :: b2 :: rest) ∧
      b2.extractLsb' 5 3 = 0b011
  | .dgStart seq t gid payload =>
    ∃ b0 b1 b2 rest, encode (.dgStart seq t gid payload) = .datagram (b0 :: b1 :: b2 :: rest) ∧
      b2.extractLsb' 5 3 = 0b010
  | .dgMid seq t gid payload =>
    ∃ b0 b1 b2 rest, encode (.dgMid seq t gid payload) = .datagram (b0 :: b1 :: b2 :: rest) ∧
      b2.extractLsb' 5 3 = 0b000
  | .dgEnd seq t gid payload =>
    ∃ b0 b1 b2 rest, encode (.dgEnd seq t gid payload) = .datagram (b0 :: b1 :: b2 :: rest) ∧
      b2.extractLsb' 5 3 = 0b001
  | .rx dg => ∃ ops, encode (.rx dg) = .command (0x01 :: ops)
  | .reset => ∃ ops, encode .reset = .command (0x02 :: ops)
  | .rdStat sel => ∃ ops, encode (.rdStat sel) = .command (0x03 :: ops)
  | .parse dg => ∃ ops, encode (.parse dg) = .command (0x10 :: ops)
  | .serialize p => ∃ ops, encode (.serialize p) = .command (0x11 :: ops)
  | .fecProcess p => ∃ ops, encode (.fecProcess p) = .command (0x20 :: ops)
  | .fecGetRc => ∃ ops, encode .fecGetRc = .command (0x21 :: ops)
  | .fecReset => ∃ ops, encode .fecReset = .command (0x22 :: ops)
  | .rsmProcess p => ∃ ops, encode (.rsmProcess p) = .command (0x30 :: ops)
  | .rsmGetUnits => ∃ ops, encode .rsmGetUnits = .command (0x31 :: ops)
  | .rsmGetDedup => ∃ ops, encode .rsmGetDedup = .command (0x32 :: ops)
  | .rsmReset => ∃ ops, encode .rsmReset = .command (0x33 :: ops)

/-- The class bits the flags byte is assembled from (30_encoding.md R64). -/
theorem flagsByte_class (s e : Bool) (t : UnitType) :
    (flagsByte true s e t).getLsbD 7 = true ∧
      (flagsByte false s e t).extractLsb' 5 3 = (BitVec.ofBool false ++ BitVec.ofBool s ++ BitVec.ofBool e : BitVec 3) := by
  revert s e t; decide

theorem dgFec (seq : SeqNum) (a e : Bool) (n : UnitType) (gid : GroupId) (payload : Bytes) :
    Statement (.dgFec seq a e n gid payload) :=
  ⟨_, _, _, _, rfl, (flagsByte_class a e n).1⟩

theorem dgSingle (seq : SeqNum) (t : UnitType) (gid : GroupId) (payload : Bytes) :
    Statement (.dgSingle seq t gid payload) :=
  ⟨_, _, _, _, rfl, (flagsByte_class true true t).2⟩

theorem dgStart (seq : SeqNum) (t : UnitType) (gid : GroupId) (payload : Bytes) :
    Statement (.dgStart seq t gid payload) :=
  ⟨_, _, _, _, rfl, (flagsByte_class true false t).2⟩

theorem dgMid (seq : SeqNum) (t : UnitType) (gid : GroupId) (payload : Bytes) :
    Statement (.dgMid seq t gid payload) :=
  ⟨_, _, _, _, rfl, (flagsByte_class false false t).2⟩

theorem dgEnd (seq : SeqNum) (t : UnitType) (gid : GroupId) (payload : Bytes) :
    Statement (.dgEnd seq t gid payload) :=
  ⟨_, _, _, _, rfl, (flagsByte_class false true t).2⟩

theorem rx (dg : Bytes) : Statement (.rx dg) := ⟨_, rfl⟩
theorem reset : Statement .reset := ⟨_, rfl⟩
theorem rdStat (sel : Selector) : Statement (.rdStat sel) := ⟨_, rfl⟩
theorem parse (dg : Bytes) : Statement (.parse dg) := ⟨_, rfl⟩
theorem serialize (p : Packet) : Statement (.serialize p) := ⟨_, rfl⟩
theorem fecProcess (p : Packet) : Statement (.fecProcess p) := ⟨_, rfl⟩
theorem fecGetRc : Statement .fecGetRc := ⟨_, rfl⟩
theorem fecReset : Statement .fecReset := ⟨_, rfl⟩
theorem rsmProcess (p : Packet) : Statement (.rsmProcess p) := ⟨_, rfl⟩
theorem rsmGetUnits : Statement .rsmGetUnits := ⟨_, rfl⟩
theorem rsmGetDedup : Statement .rsmGetDedup := ⟨_, rfl⟩
theorem rsmReset : Statement .rsmReset := ⟨_, rfl⟩

end Sys2Proof.Laws.RowBits
end

