-- ==== Sys2Proof/Laws/Rsm.lean ====
section
/-! SUPPORT. What each part of RSM.PROCESS can do (42_reassembler.md), once: the window, emission, the four fragment
positions, and the invariant of the Reassembler. -/

namespace Sys2Proof.Machine

/-! ## Warnings -/

@[simp] theorem Reassembly.warn_rsm (o : Reassembly) (w : Option Event) : (o.warn w).rsm = o.rsm := by
  cases w <;> rfl

@[simp] theorem Reassembly.warn_units (o : Reassembly) (w : Option Event) : (o.warn w).units = o.units := by
  cases w <;> rfl

@[simp] theorem Reassembly.warn_events (o : Reassembly) (w : Option Event) :
    (o.warn w).events = o.events ++ w.toList := by
  cases w <;> simp [Reassembly.warn]

/-! ## The window -/

/-- The newest entry is the one just inserted (42_reassembler.md R153, R154). -/
theorem windowInsert_getLast? (c : Config) (dw : List SeqNum) (s : SeqNum) :
    (windowInsert c dw s).getLast? = some s := by
  unfold windowInsert
  simp only
  split
  · rw [List.getLast?_drop, if_neg (by simp; omega)]; simp
  · simp

theorem mem_windowInsert_self (c : Config) (dw : List SeqNum) (s : SeqNum) : s ∈ windowInsert c dw s :=
  List.mem_of_getLast? (windowInsert_getLast? c dw s)

theorem windowInsert_sublist (c : Config) (dw : List SeqNum) (s : SeqNum) :
    (windowInsert c dw s).Sublist (dw ++ [s]) := by
  unfold windowInsert
  simp only
  split
  · exact List.drop_sublist _ _
  · exact List.Sublist.refl _

/-- Only the inserted number is new. -/
theorem mem_windowInsert {c : Config} {dw : List SeqNum} {s a : SeqNum} (h : a ∈ windowInsert c dw s) :
    a ∈ dw ∨ a = s := by simpa using (windowInsert_sublist c dw s).subset h

theorem windowInsert_nodup {c : Config} {dw : List SeqNum} {s : SeqNum} (h : dw.Nodup) (hs : s ∉ dw) :
    (windowInsert c dw s).Nodup :=
  List.Nodup.sublist (windowInsert_sublist c dw s) (by
    rw [List.nodup_append]
    exact ⟨h, by simp, by rintro a ha b hb rfl; exact hs (by simpa using List.mem_singleton.mp hb ▸ ha)⟩)

/-- The window never holds more than its capacity between operations (42_reassembler.md R155). -/
theorem windowInsert_length {c : Config} {dw : List SeqNum} (s : SeqNum) (hc : 1 ≤ c.dedupCap)
    (h : dw.length ≤ c.dedupCap) : (windowInsert c dw s).length ≤ c.dedupCap := by
  unfold windowInsert
  simp only
  split
  · simp; omega
  · omega

/-! ## Emission -/

@[simp] theorem emit_rsm (c : Config) (t : UnitType) (d : Bytes) (o : Reassembly) :
    (emit c t d o).rsm = { o.rsm with unitsReassembled := satInc c o.rsm.unitsReassembled } := by simp [emit]

@[simp] theorem emit_units (c : Config) (t : UnitType) (d : Bytes) (o : Reassembly) :
    (emit c t d o).units = o.units ++ [⟨embeddedType d t, d⟩] := by simp [emit]

@[simp] theorem emit_events (c : Config) (t : UnitType) (d : Bytes) (o : Reassembly) :
    (emit c t d o).events = o.events ++ (mismatchWarning d t).toList := by simp [emit]

@[simp] theorem overflow_rsm (p : Packet) (o : Reassembly) :
    (overflow p o).rsm = { o.rsm with fb := mapDel o.rsm.fb p.typeOrCount } := rfl

@[simp] theorem overflow_units (p : Packet) (o : Reassembly) : (overflow p o).units = o.units := rfl

@[simp] theorem overflow_events (p : Packet) (o : Reassembly) :
    (overflow p o).events = o.events ++ [.bufOverflow p.sequenceNumber p.typeOrCount] := rfl

/-! ## The state machine -/

/-- Everything a fragment can do to the Reassembler (42_reassembler.md R159): the buffer of its own type is set or
closed, at most one unit and at most one event are added. -/
theorem fragment_cases (c : Config) (p : Packet) (o : Reassembly) :
    (∃ d, fragment c p o = emit c p.typeOrCount d o) ∨
    (∃ d, d.length ≤ c.fragBufCap ∧
      fragment c p o = emit c p.typeOrCount d (o.setFb (mapDel o.rsm.fb p.typeOrCount))) ∨
    (∃ d, d.length ≤ c.fragBufCap ∧ fragment c p o = o.setFb (mapSet o.rsm.fb p.typeOrCount d)) ∨
    fragment c p o = overflow p o ∨
    (∃ pos, fragment c p o = o.raise (.orphan p.sequenceNumber p.typeOrCount pos)) := by
  unfold fragment
  split
  · exact .inl ⟨_, rfl⟩
  · unfold fragStart
    split
    · exact .inr (.inr (.inr (.inl rfl)))
    · exact .inr (.inr (.inl ⟨_, by omega, rfl⟩))
  · unfold fragEnd
    split
    · exact .inr (.inr (.inr (.inr ⟨_, rfl⟩)))
    · split
      · exact .inr (.inr (.inr (.inl rfl)))
      · exact .inr (.inl ⟨_, by simp; omega, rfl⟩)
  · unfold fragMid
    split
    · exact .inr (.inr (.inr (.inr ⟨_, rfl⟩)))
    · split
      · exact .inr (.inr (.inr (.inl rfl)))
      · exact .inr (.inr (.inl ⟨_, by simp; omega, rfl⟩))

/-- A fragment never touches the buffer of another type (42_reassembler.md R167). -/
theorem fragment_other (c : Config) (p : Packet) (o : Reassembly) {t : UnitType} (h : t ≠ p.typeOrCount) :
    mapGet (fragment c p o).rsm.fb t = mapGet o.rsm.fb t := by
  rcases fragment_cases c p o with ⟨d, e⟩ | ⟨d, _, e⟩ | ⟨d, _, e⟩ | e | ⟨pos, e⟩ <;> rw [e]
  · simp
  · simp [mapGet_mapDel_other _ h]
  · simp [mapGet_mapSet_other _ _ h]
  · simp [mapGet_mapDel_other _ h]
  · simp

/-- The window and the last-seen number are not the state machine's to write, nor is the dedup counter. -/
theorem fragment_frame (c : Config) (p : Packet) (o : Reassembly) :
    (fragment c p o).rsm.dw = o.rsm.dw ∧ (fragment c p o).rsm.lastSeq = o.rsm.lastSeq ∧
      (fragment c p o).rsm.packetsDeduplicated = o.rsm.packetsDeduplicated := by
  rcases fragment_cases c p o with ⟨d, e⟩ | ⟨d, _, e⟩ | ⟨d, _, e⟩ | e | ⟨pos, e⟩ <;> rw [e] <;> simp

/-- A middle fragment emits nothing (42_reassembler.md R164, R165). -/
theorem fragMid_units (c : Config) (p : Packet) (o : Reassembly) : (fragMid c p o).units = o.units := by
  unfold fragMid; split
  · rfl
  · split <;> rfl

theorem fragMid_unitsReassembled (c : Config) (p : Packet) (o : Reassembly) :
    (fragMid c p o).rsm.unitsReassembled = o.rsm.unitsReassembled := by
  unfold fragMid; split
  · rfl
  · split <;> rfl

/-! ## RSM.PROCESS -/

theorem reassemble_fec {p : Packet} (h : p.isFec = true) (c : Config) (r : RsmState) :
    reassemble c p r = .start r := by simp [reassemble, h]

theorem reassemble_duplicate {p : Packet} (h : p.isFec = false) {r : RsmState} (hs : p.sequenceNumber ∈ r.dw)
    (c : Config) : reassemble c p r = dropDuplicate c r := by simp [reassemble, h, hs]

theorem reassemble_new {p : Packet} (h : p.isFec = false) {r : RsmState} (hs : p.sequenceNumber ∉ r.dw)
    (c : Config) : reassemble c p r = acceptPacket c p r := by simp [reassemble, h, hs]

/-- The three outcomes of RSM.PROCESS, in the order of its checks (60_exceptions.md R231). -/
theorem reassemble_cases (c : Config) (p : Packet) (r : RsmState) :
    (p.isFec = true ∧ reassemble c p r = .start r) ∨
    (p.isFec = false ∧ p.sequenceNumber ∈ r.dw ∧ reassemble c p r = dropDuplicate c r) ∨
    (p.isFec = false ∧ p.sequenceNumber ∉ r.dw ∧ reassemble c p r = acceptPacket c p r) := by
  cases h : p.isFec with
  | true => exact .inl ⟨rfl, reassemble_fec h c r⟩
  | false =>
    by_cases hs : p.sequenceNumber ∈ r.dw
    · exact .inr (.inl ⟨rfl, hs, reassemble_duplicate h hs c⟩)
    · exact .inr (.inr ⟨rfl, hs, reassemble_new h hs c⟩)

@[simp] theorem acceptPacket_dw (c : Config) (p : Packet) (r : RsmState) :
    (acceptPacket c p r).rsm.dw = windowInsert c r.dw p.sequenceNumber := by
  simp [acceptPacket, (fragment_frame c p _).1]

@[simp] theorem acceptPacket_lastSeq (c : Config) (p : Packet) (r : RsmState) :
    (acceptPacket c p r).rsm.lastSeq = some p.sequenceNumber := by
  simp [acceptPacket, (fragment_frame c p _).2.1]

@[simp] theorem acceptPacket_packetsDeduplicated (c : Config) (p : Packet) (r : RsmState) :
    (acceptPacket c p r).rsm.packetsDeduplicated = r.packetsDeduplicated := by
  simp [acceptPacket, (fragment_frame c p _).2.2]

/-- RSM.PROCESS never touches the buffer of another type (42_reassembler.md R167). -/
theorem reassemble_other (c : Config) (p : Packet) (r : RsmState) {t : UnitType} (h : t ≠ p.typeOrCount) :
    mapGet (reassemble c p r).rsm.fb t = mapGet r.fb t := by
  rcases reassemble_cases c p r with ⟨_, e⟩ | ⟨_, _, e⟩ | ⟨_, _, e⟩ <;> rw [e]
  · rfl
  · rfl
  · simp [acceptPacket, fragment_other c p _ h]

/-- A packet with the fields of a middle fragment, as every recovered packet has, never emits
(42_reassembler.md R181). -/
theorem reassemble_middle {p : Packet} (hs : p.isStart = false) (he : p.isEnd = false) (c : Config) (r : RsmState) :
    (reassemble c p r).units = [] ∧ (reassemble c p r).rsm.unitsReassembled = r.unitsReassembled := by
  rcases reassemble_cases c p r with ⟨_, e⟩ | ⟨_, _, e⟩ | ⟨_, _, e⟩ <;> rw [e]
  · exact ⟨rfl, rfl⟩
  · exact ⟨rfl, rfl⟩
  · simp [acceptPacket, fragment, hs, he, fragMid_units, fragMid_unitsReassembled]

/-- A packet just processed is in the window, if it is no FEC packet (42_reassembler.md R153). -/
theorem reassemble_mem_dw {p : Packet} (h : p.isFec = false) (c : Config) (r : RsmState) :
    p.sequenceNumber ∈ (reassemble c p r).rsm.dw := by
  rcases reassemble_cases c p r with ⟨h', _⟩ | ⟨_, hs, e⟩ | ⟨_, _, e⟩
  · simp [h] at h'
  · rw [e]; exact hs
  · rw [e, acceptPacket_dw]; exact mem_windowInsert_self _ _ _

theorem fragment_inv {c : Config} {p : Packet} {o : Reassembly} (h : rsmInv c o.rsm) :
    rsmInv c (fragment c p o).rsm := by
  obtain ⟨h1, h2, h3, h4, h5, h6, h7⟩ := h
  rcases fragment_cases c p o with ⟨d, e⟩ | ⟨d, hd, e⟩ | ⟨d, hd, e⟩ | e | ⟨pos, e⟩ <;> rw [e]
  · rw [emit_rsm]; exact ⟨h1, h2, h3, h4, h5, satInc_le_max h6, h7⟩
  · rw [emit_rsm, Reassembly.setFb_rsm]
    exact ⟨mapWf_mapDel h1 _, fun b hb => h2 b (mem_mapDel.mp hb).1, h3, h4, h5, satInc_le_max h6, h7⟩
  · rw [Reassembly.setFb_rsm]
    refine ⟨mapWf_mapSet h1 _ _, fun b hb => ?_, h3, h4, h5, h6, h7⟩
    rcases mem_mapSet hb with rfl | hb
    · exact hd
    · exact h2 b hb
  · rw [overflow_rsm]; exact ⟨mapWf_mapDel h1 _, fun b hb => h2 b (mem_mapDel.mp hb).1, h3, h4, h5, h6, h7⟩
  · exact ⟨h1, h2, h3, h4, h5, h6, h7⟩

/-- RSM.PROCESS keeps the Reassembler's invariant (10_state.md R22, R24; 42_reassembler.md R155, R168). -/
theorem reassemble_inv {c : Config} (hc : 1 ≤ c.dedupCap) {r : RsmState} (hr : rsmInv c r) (p : Packet) :
    rsmInv c (reassemble c p r).rsm := by
  obtain ⟨h1, h2, h3, h4, h5, h6, h7⟩ := hr
  rcases reassemble_cases c p r with ⟨_, e⟩ | ⟨_, _, e⟩ | ⟨_, hs, e⟩ <;> rw [e]
  · exact ⟨h1, h2, h3, h4, h5, h6, h7⟩
  · exact ⟨h1, h2, h3, h4, h5, h6, satInc_le_max h7⟩
  · unfold acceptPacket
    refine fragment_inv ?_
    rw [Reassembly.warn_rsm]
    exact ⟨h1, h2, windowInsert_nodup h3 hs, windowInsert_length _ hc h4,
      (windowInsert_getLast? c r.dw p.sequenceNumber).symm, h6, h7⟩

end Sys2Proof.Machine
end

