-- ==== Sys2Proof/Laws/Pipeline.lean ====
section
/-! SUPPORT. What RX does, once (43_pipeline.md R200 to R203): the routing of one packet and its outcome by length. -/

namespace Sys2Proof.Machine

/-- Not routing an FEC packet to the Reassembler and the Reassembler ignoring it are the same (43_pipeline.md R202). -/
theorem original_eq (c : Config) (p : Packet) (r : RsmState) :
    (if p.isFec then Reassembly.start r else reassemble c p r) = reassemble c p r := by
  split
  · next h => rw [reassemble_fec h]
  · rfl

@[simp] theorem reassembleAll_nil (c : Config) (p : Packet) (r : RsmState) :
    reassembleAll c p [] r = reassemble c p r := original_eq c p r

@[simp] theorem reassembleAll_one (c : Config) (p q : Packet) (r : RsmState) :
    reassembleAll c p [q] r = (reassemble c p r).andThen (reassemble c q) := by
  simp only [reassembleAll, List.foldl_cons, List.foldl_nil, original_eq]

/-- What step 3 recovers has the fields of 41_fec.md R118. -/
theorem recoveredBy_fields {c : Config} {f : FecState} {p q : Packet} (h : recoveredBy c f p = some q) :
    q.isFec = false ∧ q.isStart = false ∧ q.isEnd = false ∧ q.typeOrCount = 0 ∧ q.groupId = p.groupId := by
  obtain ⟨_, _, _, _, _, rfl⟩ := recover_eq_some_iff.mp h
  exact ⟨rfl, rfl, rfl, rfl, rfl⟩

@[simp] theorem routePacket_cfg (p : Packet) (s : State) : (routePacket p s).cfg = s.cfg := rfl
@[simp] theorem routePacket_input (p : Packet) (s : State) : (routePacket p s).input = s.input := rfl
@[simp] theorem routePacket_fec (p : Packet) (s : State) :
    (routePacket p s).fec = fecStateAfter s.cfg s.fec p := rfl
@[simp] theorem routePacket_result (p : Packet) (s : State) : (routePacket p s).out.result = .nothing := rfl

/-- Nothing recovered: the Reassembler sees the packet alone. -/
theorem routePacket_none {p : Packet} {s : State} (h : recoveredBy s.cfg s.fec p = none) :
    (routePacket p s).rsm = (reassemble s.cfg p s.rsm).rsm ∧
    (routePacket p s).out = ⟨(reassemble s.cfg p s.rsm).units, (reassemble s.cfg p s.rsm).events, .nothing⟩ := by
  simp [routePacket, h]

/-- One packet recovered: the Reassembler sees it after the original (43_pipeline.md R202). -/
theorem routePacket_some {p q : Packet} {s : State} (h : recoveredBy s.cfg s.fec p = some q) :
    let o := reassemble s.cfg p s.rsm
    let o' := reassemble s.cfg q o.rsm
    (routePacket p s).rsm = o'.rsm ∧
    (routePacket p s).out = ⟨o.units ++ o'.units, o.events ++ o'.events, .nothing⟩ := by
  simp [routePacket, h]

/-- The recovered packet adds no unit: the units of RX are the original packet's (43_pipeline.md R200, corner cases). -/
theorem routePacket_units (p : Packet) (s : State) :
    (routePacket p s).out.units = (reassemble s.cfg p s.rsm).units ∧
    (routePacket p s).rsm.unitsReassembled = (reassemble s.cfg p s.rsm).rsm.unitsReassembled := by
  cases h : recoveredBy s.cfg s.fec p with
  | none => obtain ⟨h1, h2⟩ := routePacket_none h; rw [h1, h2]; exact ⟨rfl, rfl⟩
  | some q =>
    obtain ⟨h1, h2⟩ := routePacket_some h
    obtain ⟨_, hs, he, _⟩ := recoveredBy_fields h
    obtain ⟨u1, u2⟩ := reassemble_middle hs he s.cfg (reassemble s.cfg p s.rsm).rsm
    rw [h1, h2]; simp [u1, u2]

/-- RX touches no buffer but the packet's own type's and type 0's (42_reassembler.md R167, R181). -/
theorem routePacket_other (p : Packet) (s : State) {t : UnitType} (h : t ≠ p.typeOrCount) (h0 : t ≠ 0) :
    mapGet (routePacket p s).rsm.fb t = mapGet s.rsm.fb t := by
  cases hr : recoveredBy s.cfg s.fec p with
  | none => rw [(routePacket_none hr).1, reassemble_other _ _ _ h]
  | some q =>
    rw [(routePacket_some hr).1, reassemble_other _ _ _ (by rw [(recoveredBy_fields hr).2.2.2.1]; exact h0),
      reassemble_other _ _ _ h]

/-- RX keeps the invariant. -/
theorem routePacket_inv {s : State} (h : Inv s) (p : Packet) : Inv (routePacket p s) := by
  obtain ⟨hc, hf, hr⟩ := h
  refine ⟨hc, fecStateAfter_inv hf p, ?_⟩
  cases hq : recoveredBy s.cfg s.fec p with
  | none => rw [(routePacket_none hq).1]; exact reassemble_inv hc.2.2 hr p
  | some q => rw [(routePacket_some hq).1]; exact reassemble_inv hc.2.2 (reassemble_inv hc.2.2 hr p) q

/-! ## Outcomes by length -/

theorem boundedDatagram_le {s : State} {n : Nat} (h : n ≤ s.cfg.maxDgram) (k : Host.Outcome State Fault Refusal) :
    boundedDatagram s n k = k := if_neg (by omega)

theorem boundedDatagram_gt {s : State} {n : Nat} (h : s.cfg.maxDgram < n) (k : Host.Outcome State Fault Refusal) :
    boundedDatagram s n k = .refused (.oversizeDatagram n) := if_pos h

theorem receive_le {p : Packet} {s : State} (h : p.payload.length ≤ s.cfg.maxPayload) :
    receive p s = .next (routePacket p s) :=
  boundedDatagram_le (by simpa [Config.maxDgram] using h) _

theorem receive_gt {p : Packet} {s : State} (h : s.cfg.maxPayload < p.payload.length) :
    receive p s = .refused (.oversizeDatagram (4 + p.payload.length)) :=
  boundedDatagram_gt (by simpa [Config.maxDgram] using h) _

/-- RX of a datagram that parses. -/
theorem execRx_parsed {dg : Bytes} {p : Packet} (hp : parse dg = some p) {s : State}
    (h : dg.length ≤ s.cfg.maxDgram) : execRx dg s = .next (routePacket p s) := by
  rw [execRx, boundedDatagram_le h, hp]

end Sys2Proof.Machine
end

