-- ==== Sys2Proof/Tests/Slice0.lean ====
section
/-! SUPPORT. Small tests. Expected values are taken from spec/95_test_vectors.md (its identifiers K, V, A, P are named)
or worked by hand from the rule named; witness_<Name> meets the hypotheses of Obligations.<Name>. -/

namespace Sys2Proof.Tests

open Sys2Proof Sys2Proof.Machine

/-! ## Helpers -/

/-- The next state, if there is one. -/
def ran (i : Instr) (s : State) : Option State :=
  match exec i s with
  | .next t => some t
  | .fault _ => none
  | .refused _ => none

/-- Why the machine refused, if it did. -/
def refusal (o : Host.Outcome State Fault Refusal) : Option Refusal :=
  match o with
  | .next _ => none
  | .fault _ => none
  | .refused r => some r

/-- A build small enough for every bound to be met: two-packet groups, one group, two-byte payloads and buffers, a window
of two, one-bit counters. -/
def tiny : Config := ⟨2, 1, .numeric, 2, 2, 2, 1⟩

/-- A build with room: two-packet groups, two groups. -/
def roomy : Config := ⟨2, 2, .numeric, 4, 4, 4, 8⟩

/-- `roomy` with the other eviction order, and one group. -/
def byAge : Config := ⟨2, 1, .creation, 4, 4, 4, 8⟩

def at_ (c : Config) (f : FecState) (r : RsmState) : State := ⟨c, f, r, [], .empty⟩

def mid (seq : SeqNum) (type : UnitType) (gid : GroupId) (payload : Bytes) : Packet :=
  ⟨seq, false, false, false, type, gid, payload⟩
def start (seq : SeqNum) (type : UnitType) (payload : Bytes) : Packet := ⟨seq, false, true, false, type, 0, payload⟩
def fin (seq : SeqNum) (type : UnitType) (payload : Bytes) : Packet := ⟨seq, false, false, true, type, 0, payload⟩
def single (seq : SeqNum) (type : UnitType) (payload : Bytes) : Packet := ⟨seq, false, true, true, type, 0, payload⟩
def parity (seq : SeqNum) (n : UnitType) (gid : GroupId) (payload : Bytes) : Packet :=
  ⟨seq, true, false, false, n, gid, payload⟩

/-- V1 before its fourth step: group 7 with media 100, 101, 103. -/
def v1Group : Group :=
  ⟨[(100, mid 100 0 7 [0x01, 0x02]), (101, mid 101 0 7 [0x03, 0x04]), (103, mid 103 0 7 [0x07, 0x08])], none, 4, 0⟩
def v1 : State :=
  at_ Config.default ⟨[(7, v1Group)], 0, 1⟩ ⟨[], [100, 101, 103], some 103, 0, 0⟩

/-- A reassembler with the buffer of type 5 open, holding one byte, and one number seen. -/
def open5 : RsmState := ⟨[(5, [0x65])], [10], some 10, 0, 0⟩

/-- A group of `roomy` or `tiny` holding one media packet. -/
def half (gid : GroupId) (birth : Nat) : Group := ⟨[(20, mid 20 0 gid [0x0C])], none, 2, birth⟩

/-! ## Ill-formed terms are refused by the check of WellFormed.lean -/

theorem test_wf_dgFec : Instr.wf tiny (.dgFec 0 false false 0 0 [1, 2, 3]) = false := by decide
theorem test_wf_dgSingle : Instr.wf tiny (.dgSingle 0 0 0 [1, 2, 3]) = false := by decide
theorem test_wf_dgStart : Instr.wf tiny (.dgStart 0 0 0 [1, 2, 3]) = false := by decide
theorem test_wf_dgMid : Instr.wf tiny (.dgMid 0 0 0 [1, 2, 3]) = false := by decide
theorem test_wf_dgEnd : Instr.wf tiny (.dgEnd 0 0 0 [1, 2, 3]) = false := by decide
theorem test_wf_rx : Instr.wf tiny (.rx [0, 0, 0, 0, 1, 2, 3]) = false := by decide
theorem test_wf_parse : Instr.wf tiny (.parse [0, 0, 0, 0, 1, 2, 3]) = false := by decide
theorem test_wf_serialize : Instr.wf tiny (.serialize (mid 0 0 0 [1, 2, 3])) = false := by decide
theorem test_wf_at_the_bound :
    Instr.wf tiny (.rx [0, 0, 0, 0, 1, 2]) = true ∧ Instr.wf tiny (.serialize (mid 0 0 0 [1, 2])) = true := by decide
theorem test_encodable_rx : Instr.encodable (.rx (List.replicate (2 ^ 32) 0)) = false := by
  simp only [Instr.encodable, List.length_replicate, Nat.lt_irrefl, decide_false]
theorem test_encodable_parse : Instr.encodable (.parse (List.replicate (2 ^ 32) 0)) = false := by
  simp only [Instr.encodable, List.length_replicate, Nat.lt_irrefl, decide_false]
theorem test_encodable_packets :
    Instr.encodable (.serialize (mid 0 0 0 (List.replicate (2 ^ 32) 0))) = false ∧
    Instr.encodable (.fecProcess (mid 0 0 0 (List.replicate (2 ^ 32) 0))) = false ∧
    Instr.encodable (.rsmProcess (mid 0 0 0 (List.replicate (2 ^ 32) 0))) = false := by
  simp only [Instr.encodable, mid, List.length_replicate, Nat.lt_irrefl, decide_false, and_self]

/-! ## Decoding, each word written out from the spec (30_encoding.md R60, R66, R73, R74; operand layout: log 3) -/

-- K2: seq 0x0068, flags 1 0 0 00100
theorem test_decode_dgFec : decode (.datagram [0b00000000, 0b01101000, 0b10000100, 0b00000111, 0x0F, 0x0E]) =
    .ok (.dgFec 104 false false 4 7 [0x0F, 0x0E]) := by decide
-- K3: every header bit one; isStart and isEnd are kept
theorem test_decode_dgFec_ones : decode (.datagram [0xFF, 0xFF, 0xFF, 0xFF]) =
    .ok (.dgFec 65535 true true 31 255 []) := by decide
-- K4: flags 0 1 1 00101
theorem test_decode_dgSingle : decode (.datagram [0b00010010, 0b00110100, 0b01100101, 0b00001001, 0xAA]) =
    .ok (.dgSingle 4660 5 9 [0xAA]) := by decide
-- K6: flags 0 1 0 00101
theorem test_decode_dgStart : decode (.datagram [0b00000000, 0b00001010, 0b01000101, 0b00000001, 0x65, 0xAA]) =
    .ok (.dgStart 10 5 1 [0x65, 0xAA]) := by decide
-- K5: big-endian, flags 0 0 0 00000
theorem test_decode_dgMid : decode (.datagram [0b00000001, 0b00000000, 0b00000000, 0b00000000, 0x00]) =
    .ok (.dgMid 256 0 0 [0x00]) := by decide
-- K7: flags 0 0 1 00101
theorem test_decode_dgEnd : decode (.datagram [0b00000000, 0b00001101, 0b00100101, 0b00000001, 0xCC, 0xDD]) =
    .ok (.dgEnd 13 5 1 [0xCC, 0xDD]) := by decide
-- K9: no header, no class
theorem test_decode_short : decode (.datagram [0x01, 0x02, 0x03]) = .ok (.rx [0x01, 0x02, 0x03]) := by decide
theorem test_decode_rx : decode (.command [0b00000001, 0, 0, 0, 2, 0xAB, 0xCD]) = .ok (.rx [0xAB, 0xCD]) := by decide
theorem test_decode_reset : decode (.command [0b00000010]) = .ok .reset := by decide
theorem test_decode_rdStat :
    decode (.command [0b00000011, 0]) = .ok (.rdStat .recoveredCount) ∧
    decode (.command [0b00000011, 1]) = .ok (.rdStat .unitsReassembled) ∧
    decode (.command [0b00000011, 2]) = .ok (.rdStat .packetsDeduplicated) ∧
    decode (.command [0b00000011, 3]) = .error (.reservedSelector 3) := by decide
theorem test_decode_parse : decode (.command [0b00010000, 0, 0, 0, 1, 0x80]) = .ok (.parse [0x80]) := by decide
theorem test_decode_serialize :
    decode (.command [0b00010001, 0xFF, 0xFF, 0b01100111, 0xFF, 0, 0, 0, 1, 0x67]) =
      .ok (.serialize ⟨65535, false, true, true, 7, 255, [0x67]⟩) := by decide
theorem test_decode_fecProcess :
    decode (.command [0b00100000, 0x00, 0x68, 0b10000100, 0x07, 0, 0, 0, 2, 0x0F, 0x0E]) =
      .ok (.fecProcess (parity 104 4 7 [0x0F, 0x0E])) := by decide
theorem test_decode_fecGetRc : decode (.command [0b00100001]) = .ok .fecGetRc := by decide
theorem test_decode_fecReset : decode (.command [0b00100010]) = .ok .fecReset := by decide
theorem test_decode_rsmProcess :
    decode (.command [0b00110000, 0x00, 0x0A, 0b01000101, 0x00, 0, 0, 0, 1, 0x65]) =
      .ok (.rsmProcess (start 10 5 [0x65])) := by decide
theorem test_decode_rsmGetUnits : decode (.command [0b00110001]) = .ok .rsmGetUnits := by decide
theorem test_decode_rsmGetDedup : decode (.command [0b00110010]) = .ok .rsmGetDedup := by decide
theorem test_decode_rsmReset : decode (.command [0b00110011]) = .ok .rsmReset := by decide
theorem test_decode_rejects :
    decode (.command []) = .error .emptyCommand ∧
    decode (.command [0x04]) = .error (.reservedCode 0x04) ∧
    decode (.command [0x10, 0, 0, 0, 2, 0x80]) = .error .truncatedOperands ∧
    decode (.command [0x02, 0x00]) = .error .trailingOperands := by decide

/-- No two rows of the class table overlap (30_encoding.md R66): two rows whose matches differ under both masks. -/
theorem test_classRows_disjoint :
    classRows.Pairwise (fun a b => a.value &&& b.mask ≠ b.value &&& a.mask) := by decide

/-! ## One step of each instruction -/

-- V1 step 4: recovery of 102, the recovered packet an orphan of type 0
theorem test_dgFec_v1 : (ran (.dgFec 104 false false 4 7 [0x0F, 0x0E]) v1).map (fun t =>
    (t.fec.recoveredCount, t.rsm.dw, t.out.events)) =
    some (1, [100, 101, 103, 102], [.seqGap 103 102, .orphan 102 0 .middle]) := by decide
-- V6b: a count of 0 removes the group at once
theorem test_dgFec_count_zero : (ran (.dgFec 50 false false 0 7 []) v1).map (fun t => (t.fec.grp, t.out.events)) =
    some ([], []) := by decide
-- A1 step 2: the embedded type wins
theorem test_dgSingle_mismatch : (ran (.dgSingle 2 7 0 [0x65, 0x88]) State.reset).map (fun t => t.out) =
    some ⟨[⟨5, [0x65, 0x88]⟩], [.typeMismatch 7 5], .nothing⟩ := by decide
-- A1 step 3: an empty unit has the header type
theorem test_dgSingle_empty : (ran (.dgSingle 3 9 0 []) State.reset).map (fun t => t.out) =
    some ⟨[⟨9, []⟩], [], .nothing⟩ := by decide
-- A3: a START over a stale buffer
theorem test_dgStart_stale : (ran (.dgStart 11 5 0 [0x25]) (at_ roomy .reset open5)).map (fun t =>
    (t.rsm.fb, t.out.events)) = some ([(5, [0x25])], []) := by decide
-- R207's example, with the window of two trimmed by one: [10, 11] and 12 give [11, 12]
theorem test_dgMid_append : (ran (.dgMid 12 5 1 [0xBB]) (at_ tiny .reset { open5 with dw := [10, 11] })).map (fun t =>
    (t.rsm.fb, t.rsm.dw, t.out.events)) = some ([(5, [0x65, 0xBB])], [11, 12], [.seqGap 10 12]) := by decide
-- A12 step 3: one byte over the cap
theorem test_dgMid_overflow : (ran (.dgMid 11 5 0 [0x01, 0x02]) (at_ tiny .reset open5)).map (fun t =>
    (t.rsm.fb, t.out.events)) = some ([], [.bufOverflow 11 5]) := by decide
-- A10 step 3: completion, the unit's own first byte cross-checked; A4 step 4: an orphan of another type
theorem test_dgEnd_emits : (ran (.dgEnd 12 3 0 [0x01]) (at_ roomy .reset ⟨[(3, [0x47])], [10, 11], some 11, 0, 0⟩)).map
    (fun t => (t.rsm.fb, t.rsm.unitsReassembled, t.out)) =
    some ([], 1, ⟨[⟨7, [0x47, 0x01]⟩], [.typeMismatch 3 7], .nothing⟩) := by decide
theorem test_dgEnd_orphan : (ran (.dgEnd 11 6 0 [0xCC]) (at_ tiny .reset open5)).map (fun t =>
    (t.rsm.fb, t.out)) = some ([(5, [0x65])], ⟨[], [.orphan 11 6 .final], .nothing⟩) := by decide
-- P1: a malformed datagram
theorem test_rx_malformed : (ran (.rx [0x01, 0x02, 0x03]) v1).map (fun t => (t.out, { t with out := v1.out })) =
    some (⟨[], [.malformed 3], .nothing⟩, v1) := by decide
-- V3 step 4: the arriving media packet first, the recovered one after it
theorem test_rx_order : (ran (.rx [0x00, 0x67, 0x00, 0x07, 0x07, 0x08])
    (at_ Config.default ⟨[(7, ⟨v1Group.media.take 2, some (parity 104 4 7 [0x0F, 0x0E]), 4, 0⟩)], 0, 1⟩
      ⟨[], [100, 101], some 101, 0, 0⟩)).map (fun t => (t.rsm.dw, t.out.events)) =
    some ([100, 101, 103, 102],
      [.seqGap 101 103, .orphan 103 0 .middle, .seqGap 103 102, .orphan 102 0 .middle]) := by decide
theorem test_reset : (ran .reset v1).map (fun t => (t.fec, t.rsm)) = some (.reset, .reset) := by decide
theorem test_rdStat : (ran (.rdStat .packetsDeduplicated) (at_ tiny ⟨[], 1, 5⟩ ⟨[], [], none, 2, 3⟩)).map
    (fun t => t.out.result) = some (.counter 3) := by decide
-- K5
theorem test_parse : (ran (.parse [0x01, 0x00, 0x00, 0x00, 0x00]) State.reset).map (fun t => t.out.result) =
    some (.packet ⟨256, false, false, false, 0, 0, [0x00]⟩) := by decide
-- K11
theorem test_parse_malformed : (ran (.parse [0x80]) State.reset).map (fun t => t.out) =
    some ⟨[], [], .malformedPacket⟩ := by decide
-- K20, K22
theorem test_serialize : (ran (.serialize ⟨65535, false, true, true, 7, 255, [0x67]⟩) State.reset).map
    (fun t => t.out.result) = some (.datagram [0xFF, 0xFF, 0x67, 0xFF, 0x67]) := by decide
theorem test_serialize_fec : (ran (.serialize (parity 0 1 9 [0xDE, 0xAD])) State.reset).map
    (fun t => t.out.result) = some (.datagram [0x00, 0x00, 0x81, 0x09, 0xDE, 0xAD]) := by decide
-- V1 step 4, K21's packet
theorem test_fecProcess_v1 : (ran (.fecProcess (parity 104 4 7 [0x0F, 0x0E])) v1).map (fun t => t.out) =
    some ⟨[], [], .recovered [mid 102 0 7 [0x0A, 0x00]]⟩ := by decide
-- V6: a group of one across the wrap
theorem test_fecProcess_wrap : (ran (.fecProcess (parity 0 1 9 [0xDE, 0xAD])) State.reset).map (fun t => t.out.result) =
    some (.recovered [mid 65535 0 9 [0xDE, 0xAD]]) := by decide
-- V14
theorem test_fecGetRc : (ran .fecGetRc (at_ tiny ⟨[], 1, 2⟩ open5)).map (fun t => t.out.result) =
    some (.counter 1) := by decide
theorem test_fecReset : (ran .fecReset v1).map (fun t => (t.fec, t.rsm)) = some (.reset, v1.rsm) := by decide
-- A6 steps 3 and 5
theorem test_rsmProcess_wrap : (ran (.rsmProcess (single 0 1 [0x41]))
    (at_ Config.default .reset ⟨[], [65534, 65535], some 65535, 2, 0⟩)).map (fun t => (t.rsm, t.out.events)) =
    some (⟨[], [65534, 65535, 0], some 0, 3, 0⟩, []) := by decide
theorem test_rsmProcess_duplicate : (ran (.rsmProcess (single 10 1 [0x41])) (at_ roomy .reset open5)).map
    (fun t => (t.rsm, t.out)) = some ({ open5 with packetsDeduplicated := 1 }, .empty) := by decide
-- A13
theorem test_rsmGetUnits : (ran .rsmGetUnits (at_ tiny .reset ⟨[], [], none, 5, 1⟩)).map (fun t => t.out.result) =
    some (.counter 5) := by decide
theorem test_rsmGetDedup : (ran .rsmGetDedup (at_ tiny .reset ⟨[], [], none, 5, 1⟩)).map (fun t => t.out.result) =
    some (.counter 1) := by decide
theorem test_rsmReset : (ran .rsmReset { v1 with rsm := open5 }).map (fun t => (t.fec, t.rsm)) =
    some (v1.fec, .reset) := by decide
-- 10_state.md R27: a counter of one bit stays at 1
theorem test_counter_saturates : satInc tiny 0 = 1 ∧ satInc tiny 1 = 1 := by decide
-- 60_exceptions.md R221: EV_ORPHAN(13, 6, end)
theorem test_event_word : (Event.orphan 13 6 .final).info = 0x000D0601 := by decide

/-! ## Witnesses: states and operands that meet the hypotheses of the obligations -/

theorem witness_ParseReadsTheHeaderFields :
    ([1, 2] : Bytes).length ≤ (at_ tiny .reset .reset).cfg.maxPayload ∧
    ([] : Bytes).length < 4 ∧ ([1, 2, 3] : Bytes).length < 4 := by decide

theorem witness_SerializeAssemblesTheHeader :
    (mid 1 2 3 [1, 2]).payload.length ≤ (at_ tiny .reset .reset).cfg.maxPayload := by decide

theorem witness_ParseAndSerializeUndoEachOther :
    (mid 1 2 3 [1, 2]).payload.length ≤ (at_ tiny .reset .reset).cfg.maxPayload ∧
    4 ≤ ([0, 0, 0, 0] : Bytes).length ∧
    ([0, 0, 0, 0, 1, 2] : Bytes).length ≤ (at_ tiny .reset .reset).cfg.maxDgram := by decide

theorem witness_DecodeUndoesEncode :
    Instr.encodable (.parse (List.replicate (2 ^ 32 - 1) 0)) = true ∧ Instr.encodable .reset = true := by
  simp only [Instr.encodable, List.length_replicate]; decide

theorem witness_EncodeUndoesDecode :
    decode (.command [0x03, 0x02]) = .ok (.rdStat .packetsDeduplicated) ∧
    4 ≤ ([0, 1, 0x40, 2] : Bytes).length ∧ decode (.datagram [0, 1, 0x40, 2]) = .ok (.dgStart 1 0 2 []) := by decide

theorem witness_EveryHeaderHasExactlyOneClass :
    ([] : Bytes).length < 4 ∧ decode (.datagram [0x80, 0, 0]) = .ok (.rx [0x80, 0, 0]) ∧
    ([0x80, 0, 0] : Bytes).length < 4 := by decide

theorem witness_ReservedCodesAndSelectorsAreRefused :
    (0x00 : Byte) ∉ ([0x01, 0x02, 0x03, 0x10, 0x11, 0x20, 0x21, 0x22, 0x30, 0x31, 0x32, 0x33] : List Byte) ∧
    (0x34 : Byte) ∉ ([0x01, 0x02, 0x03, 0x10, 0x11, 0x20, 0x21, 0x22, 0x30, 0x31, 0x32, 0x33] : List Byte) ∧
    3 ≤ (0x03 : Byte).toNat := by decide

theorem witness_OversizeInputIsRefused :
    (at_ tiny .reset .reset).cfg.maxDgram < ([0, 0, 0, 0, 1, 2, 3] : Bytes).length ∧
    packetOfClass (.dgMid 1 2 3 [1, 2, 3]) = some (mid 1 2 3 [1, 2, 3]) ∧
    (at_ tiny .reset .reset).cfg.maxPayload < (mid 1 2 3 [1, 2, 3]).payload.length := by decide

theorem witness_StepRunsTheDecodedInstruction :
    ({ v1 with input := [.command [0x02]] } : State).input = [.command [0x02]] ∧
    decode (.command [0x02]) = .ok .reset := by decide

theorem witness_StepWithoutAnInstruction :
    State.reset.input = [] ∧
    ({ v1 with input := [.command [0x04]] } : State).input = [.command [0x04]] ∧
    decode (.command [0x04]) = .error (.reservedCode 0x04) := by decide

theorem witness_ShortDatagramIsDroppedWithOneEvent : ([] : Bytes).length < 4 ∧ ([0, 0, 0] : Bytes).length < 4 := by decide

theorem witness_EachClassIsRxOfItsDatagram :
    packetOfClass (.dgFec 1 true false 2 3 [4]) = some ⟨1, true, true, false, 2, 3, [4]⟩ := by decide

/-- Both outcomes of step 3 happen. -/
theorem witness_RxIsTheCompositionOfItsParts :
    parse [0x00, 0x68, 0x84, 0x07, 0x0F, 0x0E] = some (parity 104 4 7 [0x0F, 0x0E]) ∧
    ([0x00, 0x68, 0x84, 0x07, 0x0F, 0x0E] : Bytes).length ≤ v1.cfg.maxDgram ∧
    recoveredBy v1.cfg v1.fec (parity 104 4 7 [0x0F, 0x0E]) = some (mid 102 0 7 [0x0A, 0x00]) ∧
    recoveredBy State.reset.cfg State.reset.fec (parity 104 4 7 [0x0F, 0x0E]) = none := by decide

theorem witness_OneDatagramEmitsAtMostOneUnit :
    packetOfClass (.dgSingle 1 2 0 [1, 2]) = some (single 1 2 [1, 2]) ∧
    (single 1 2 [1, 2]).payload.length ≤ tiny.maxPayload ∧
    (ran (.dgSingle 1 2 0 [1, 2]) (at_ tiny .reset .reset)).map (fun t => t.out.units.length) = some 1 := by decide

theorem witness_DgFecFeedsOnlyTheRecoveredPacketOn :
    ([0x0F, 0x0E] : Bytes).length ≤ v1.cfg.maxPayload ∧
    recoveredBy v1.cfg v1.fec (parity 104 4 7 [0x0F, 0x0E]) = some (mid 102 0 7 [0x0A, 0x00]) ∧
    recoveredBy v1.cfg v1.fec (parity 104 5 7 [0x0F, 0x0E]) = none := by decide

/-- A new and a seen number; a recovery and none. -/
theorem witness_DgSingleEmitsItsPayload :
    ([1, 2] : Bytes).length ≤ (at_ tiny .reset open5).cfg.maxPayload ∧
    (11 : SeqNum) ∉ open5.dw ∧ (10 : SeqNum) ∈ open5.dw ∧ (5 : UnitType) ≠ 0 ∧
    (recoveredBy tiny .reset (single 11 5 [1, 2])).toList = [] := by decide

theorem witness_DgStartOpensItsBuffer :
    ([1, 2] : Bytes).length ≤ ({ tiny with fragBufCap := 1 } : Config).maxPayload ∧
    (5 : UnitType) ≠ 0 ∧ (11 : SeqNum) ∉ open5.dw ∧ (10 : SeqNum) ∈ open5.dw ∧
    ([1, 2] : Bytes).length ≤ tiny.fragBufCap ∧
    ({ tiny with fragBufCap := 1 } : Config).fragBufCap < ([1, 2] : Bytes).length := by decide

theorem witness_DgMidAppendsToItsBuffer :
    ([1, 2] : Bytes).length ≤ (at_ tiny .reset open5).cfg.maxPayload ∧
    (11 : SeqNum) ∉ open5.dw ∧ (10 : SeqNum) ∈ open5.dw ∧
    mapGet open5.fb 5 = some [0x65] ∧ mapGet open5.fb 6 = none ∧
    ([0x65] : Bytes).length + ([1] : Bytes).length ≤ tiny.fragBufCap ∧
    tiny.fragBufCap < ([0x65] : Bytes).length + ([1, 2] : Bytes).length ∧
    (recoveredBy tiny .reset (mid 11 0 0 [1])).toList = [] := by decide

theorem witness_DgEndEmitsItsBuffer :
    ([1, 2] : Bytes).length ≤ (at_ tiny .reset open5).cfg.maxPayload ∧
    (11 : SeqNum) ∉ open5.dw ∧ (10 : SeqNum) ∈ open5.dw ∧
    mapGet open5.fb 5 = some [0x65] ∧ mapGet open5.fb 6 = none ∧
    ([0x65] : Bytes).length + ([1] : Bytes).length ≤ tiny.fragBufCap ∧
    tiny.fragBufCap < ([0x65] : Bytes).length + ([1, 2] : Bytes).length := by decide

theorem witness_RecoverySuppressesTheLateOriginal :
    (parity 104 4 7 [0x0F, 0x0E]).payload.length ≤ v1.cfg.maxPayload ∧
    recoveredBy v1.cfg v1.fec (parity 104 4 7 [0x0F, 0x0E]) = some (mid 102 0 7 [0x0A, 0x00]) ∧
    (start 102 5 [0x0A, 0x00]).isFec = false ∧
    (start 102 5 [0x0A, 0x00]).sequenceNumber = (mid 102 0 7 [0x0A, 0x00]).sequenceNumber := by decide

/-- A group created by a media packet where there is one place; the table full and the group tracked; the table full, the
group new and complete at once (a count of 0). -/
theorem witness_FecProcessFrame :
    mapWf ([(7, half 7 0)] : Map 8 Group) ∧ ([(7, half 7 0)] : Map 8 Group).length < roomy.maxGroups ∧
    mapGet ([(7, half 7 0)] : Map 8 Group) 8 = none ∧ (mid 30 0 8 []).isFec = false ∧
    1 < roomy.fecGroupSize.toNat ∧
    mapGet (fecStateAfter roomy ⟨[(7, half 7 0)], 0, 1⟩ (mid 30 0 8 [])).grp 8 ≠ none ∧
    ([(7, half 7 0)] : Map 8 Group).length ≤ tiny.maxGroups ∧
    ¬ ([(7, half 7 0)] : Map 8 Group).length < tiny.maxGroups ∧
    mapGet ([(7, half 7 0)] : Map 8 Group) 7 ≠ none ∧
    (groupAfterStore tiny ⟨[(7, half 7 0)], 0, 1⟩ (parity 30 0 8 [])).expectedCount.toNat ≤
      (groupAfterStore tiny ⟨[(7, half 7 0)], 0, 1⟩ (parity 30 0 8 [])).media.length := by decide

/-- Clause by clause: a tracked group, and a new one with one place free. -/
theorem witness_RedundancyPacketIsStored :
    (parity 22 2 7 [1]).isFec = true ∧
    (∃ g, mapGet ([(7, half 7 0)] : Map 8 Group) 7 = some g ∧ g.media = (half 7 0).media) ∧
    mapGet ([(7, half 7 0)] : Map 8 Group) 8 = none ∧
    mapWf ([(7, half 7 0)] : Map 8 Group) ∧
    ([(7, half 7 0)] : Map 8 Group).length < roomy.maxGroups ∧
    (half 7 0).media.length < (parity 22 2 7 [1]).typeOrCount.toNat ∧
    ([] : Map 16 Packet).length < (parity 22 1 8 [1]).typeOrCount.toNat :=
  ⟨by decide, ⟨_, rfl, rfl⟩, by decide, by decide, by decide, by decide, by decide⟩

/-- A new number in a group that is two short; a stored number, its packet another, in a group that is one short (V7). -/
theorem witness_FirstMediaPacketOfANumberIsKept :
    mapWf v1.fec.grp ∧ v1.fec.grp.length ≤ v1.cfg.maxGroups ∧ (mid 102 0 7 []).isFec = false ∧
    mapGet ([(7, { v1Group with media := v1Group.media.take 2 })] : Map 8 Group) 7 =
      some { v1Group with media := v1Group.media.take 2 } ∧
    (v1Group.media.take 2).length + 1 < v1Group.expectedCount.toNat ∧
    mapGet (v1Group.media.take 2) 102 = none ∧
    mapGet v1.fec.grp 7 = some v1Group ∧ v1Group.media.length < v1Group.expectedCount.toNat ∧
    v1Group.media.length + 1 = v1Group.expectedCount.toNat ∧
    mapGet v1Group.media 100 = some (mid 100 0 7 [0x01, 0x02]) ∧ mid 100 0 7 [0xFF] ≠ mid 100 0 7 [0x01, 0x02] := by
  decide

/-- No redundancy packet; one, with two missing; one, with an expectedCount of 0. -/
theorem witness_NoRecoveryUnlessOneIsMissing :
    (groupAfterStore v1.cfg v1.fec (mid 102 0 7 [])).fec = none ∧
    ((groupAfterStore v1.cfg v1.fec (parity 104 5 7 [])).media.length : Int) ≠
      ((groupAfterStore v1.cfg v1.fec (parity 104 5 7 [])).expectedCount.toNat : Int) - 1 ∧
    ((groupAfterStore v1.cfg v1.fec (parity 104 0 7 [])).media.length : Int) ≠
      ((groupAfterStore v1.cfg v1.fec (parity 104 0 7 [])).expectedCount.toNat : Int) - 1 := by decide

/-- Both sides of the equivalence hold somewhere. -/
theorem witness_RecoveryOfTheOneMissingMember :
    (recoveredBy v1.cfg v1.fec (parity 104 4 7 [0x0F, 0x0E])).toList = [mid 102 0 7 [0x0A, 0x00]] := by decide

theorem witness_XorDoesNotDependOnTheOrder :
    (half 7 0).media.Perm (half 7 0).media ∧
    ([(1, mid 1 0 0 [3]), (2, mid 2 0 0 [4])] : Map 16 Packet).Perm [(2, mid 2 0 0 [4]), (1, mid 1 0 0 [3])] :=
  ⟨.refl _, .swap _ _ _⟩

theorem witness_RecoveryRepeats :
    Inv v1 ∧ ∃ t, exec (.fecProcess (parity 104 4 7 [0x0F, 0x0E])) v1 = .next t ∧
      t.out.result = .recovered [mid 102 0 7 [0x0A, 0x00]] ∧ mapGet t.fec.grp 7 ≠ none :=
  ⟨by decide, _, rfl, by decide, by decide⟩

/-- The count reached, and passed. -/
theorem witness_CompleteGroupIsRemoved :
    (groupAfterStore v1.cfg v1.fec (parity 104 3 7 [])).expectedCount.toNat ≤
      (groupAfterStore v1.cfg v1.fec (parity 104 3 7 [])).media.length ∧
    (groupAfterStore v1.cfg v1.fec (parity 104 0 7 [])).expectedCount.toNat ≤
      (groupAfterStore v1.cfg v1.fec (parity 104 0 7 [])).media.length := by decide

/-- Both eviction orders; the new group lower and higher than the tracked one. -/
theorem witness_EvictionRemovesTheVictim :
    Inv (at_ tiny ⟨[(7, half 7 0)], 0, 1⟩ .reset) ∧ Inv (at_ byAge ⟨[(7, half 7 0)], 0, 1⟩ .reset) ∧
    mapGet ([(7, half 7 0)] : Map 8 Group) 6 = none ∧ mapGet ([(7, half 7 0)] : Map 8 Group) 8 = none ∧
    ([(7, half 7 0)] : Map 8 Group).length = tiny.maxGroups ∧
    ([(7, half 7 0)] : Map 8 Group).length = byAge.maxGroups ∧
    (groupAfterStore tiny ⟨[(7, half 7 0)], 0, 1⟩ (mid 30 0 6 [])).media.length <
      (groupAfterStore tiny ⟨[(7, half 7 0)], 0, 1⟩ (mid 30 0 6 [])).expectedCount.toNat :=
  ⟨by decide, by decide, by decide, by decide, by decide, by decide, by decide⟩

theorem witness_NumericEvictionStarvesALowNewGroup :
    Inv (at_ tiny ⟨[(7, half 7 0)], 0, 1⟩ .reset) ∧ tiny.evictOrder = .numeric ∧
    ([(7, half 7 0)] : Map 8 Group).length = tiny.maxGroups ∧
    (∀ e ∈ ([(7, half 7 0)] : Map 8 Group), (mid 30 0 6 []).groupId.toNat < e.1.toNat) := by decide

/-- A group of two across the wrap, of unequal lengths, its first member lost, the redundancy packet first. -/
theorem witness_TheLostMemberIsRecovered :
    SenderGroup 9 65535 [mid 65535 3 9 [0x0A], mid 0 4 9 [0x01, 0x02]] (parity 1 2 9 [0x0B, 0x02]) ∧
    [mid 65535 3 9 [0x0A], mid 0 4 9 [0x01, 0x02]].length = roomy.fecGroupSize.toNat ∧
    mapWf ([(7, half 7 0)] : Map 8 Group) ∧ mapGet ([(7, half 7 0)] : Map 8 Group) 9 = none ∧
    ([(7, half 7 0)] : Map 8 Group).length < roomy.maxGroups ∧
    [parity 1 2 9 [0x0B, 0x02], mid 0 4 9 [0x01, 0x02]].Perm
      (parity 1 2 9 [0x0B, 0x02] :: [mid 65535 3 9 [0x0A], mid 0 4 9 [0x01, 0x02]].eraseIdx 0) :=
  ⟨⟨by decide, by decide, by decide, by decide, by decide⟩, by decide, by decide, by decide, by decide, .refl _⟩

/-- What the witness before this one comes to: the lost payload, padded to the length of the redundancy payload. -/
theorem test_lost_member_padded :
    (runCommands [.fecProcess (parity 1 2 9 [0x0B, 0x02]), .fecProcess (mid 0 4 9 [0x01, 0x02])]
      (at_ roomy ⟨[(7, half 7 0)], 0, 1⟩ .reset)).map (fun r => recoveredOf r.2) =
    some [mid 65535 0 9 [0x0A, 0x00]] := by decide

/-- Numbers moved by 65520: 20 goes to 4, across the wrap. -/
theorem witness_MovingSequenceNumbersMovesTheRecovery :
    (at_ roomy ⟨[(7, ⟨[(4, mid 4 0 7 [0x0C])], none, 2, 0⟩)], 0, 1⟩ .reset).cfg =
      (at_ roomy ⟨[(7, half 7 0)], 0, 1⟩ .reset).cfg ∧
    ShiftedFec 65520 ⟨[(7, half 7 0)], 0, 1⟩ ⟨[(7, ⟨[(4, mid 4 0 7 [0x0C])], none, 2, 0⟩)], 0, 1⟩ := by
  refine ⟨rfl, .cons ⟨rfl, ⟨by decide, fun k => ?_, rfl, rfl, rfl⟩⟩ .nil, rfl, rfl⟩
  have h : k + 65520 = 4 ↔ k = 20 := ⟨fun h => by bv_omega, fun h => by subst h; decide⟩
  simp only [half, mapGet, h]
  split
  · rfl
  · rfl

theorem witness_ReassemblerIgnoresFecPackets : (parity 5 4 0 [1, 2]).isFec = true := by decide

/-- Below the largest count, and at it. -/
theorem witness_DuplicateIsCountedAndDropped :
    (single 10 1 [0x41]).isFec = false ∧ (single 10 1 [0x41]).sequenceNumber ∈ open5.dw ∧
    open5.packetsDeduplicated < 2 ^ tiny.counterW - 1 ∧
    ¬ ({ open5 with packetsDeduplicated := 1 } : RsmState).packetsDeduplicated < 2 ^ tiny.counterW - 1 := by decide

/-- Exactly at the capacity, and one over it. -/
theorem witness_NewNumberEntersTheWindow :
    (single 12 1 []).isFec = false ∧ (single 12 1 []).sequenceNumber ∉ open5.dw ∧
    open5.dw.length + 1 ≤ tiny.dedupCap ∧
    (single 12 1 []).sequenceNumber ∉ ({ open5 with dw := [10, 11] } : RsmState).dw ∧
    tiny.dedupCap < ({ open5 with dw := [10, 11] } : RsmState).dw.length + 1 := by decide

/-- No last-seen number; the successor across the wrap; not the successor; and the packets that are not checked. -/
theorem witness_SequenceGapIsReported :
    (single 0 1 []).isFec = false ∧ (single 0 1 []).sequenceNumber ∉ RsmState.reset.dw ∧ RsmState.reset.lastSeq = none ∧
    (single 0 1 []).sequenceNumber ∉ (⟨[], [65535], some 65535, 0, 0⟩ : RsmState).dw ∧
    (single 0 1 []).sequenceNumber.toNat = ((65535 : SeqNum).toNat + 1) % 65536 ∧
    (single 1 1 []).sequenceNumber.toNat ≠ ((65535 : SeqNum).toNat + 1) % 65536 ∧
    (parity 5 4 0 []).isFec = true ∧ (single 10 1 []).sequenceNumber ∈ open5.dw := by decide

theorem witness_DiscontinuityIsReportOnly :
    ((11 : SeqNum) ∈ open5.dw ↔ (single 12 1 []).sequenceNumber ∈ open5.dw) := by decide

/-- A first byte that agrees, one that does not, and none. -/
theorem witness_SingleIsEmittedAtOnce :
    (single 11 7 [0x67]).isFec = false ∧ (single 11 7 [0x67]).isStart = true ∧ (single 11 7 [0x67]).isEnd = true ∧
    (single 11 7 [0x67]).sequenceNumber ∉ open5.dw ∧
    (0x67 : Byte).toNat % 32 = (7 : UnitType).toNat ∧ (0x65 : Byte).toNat % 32 ≠ (7 : UnitType).toNat ∧
    (single 11 7 []).payload = [] := by decide

theorem witness_StartReplacesTheBuffer :
    (start 11 5 [1, 2]).isFec = false ∧ (start 11 5 [1, 2]).isStart = true ∧ (start 11 5 [1, 2]).isEnd = false ∧
    (start 11 5 [1, 2]).sequenceNumber ∉ open5.dw ∧
    (start 11 5 [1, 2]).payload.length ≤ tiny.fragBufCap ∧
    tiny.fragBufCap < (start 11 5 [1, 2, 3]).payload.length := by decide

theorem witness_MiddleIsAppended :
    (mid 11 5 0 [1]).isFec = false ∧ (mid 11 5 0 [1]).isStart = false ∧ (mid 11 5 0 [1]).isEnd = false ∧
    (mid 11 5 0 [1]).sequenceNumber ∉ open5.dw ∧ mapGet open5.fb (mid 11 5 0 [1]).typeOrCount = some [0x65] ∧
    ([0x65] : Bytes).length + (mid 11 5 0 [1]).payload.length ≤ tiny.fragBufCap ∧
    tiny.fragBufCap < ([0x65] : Bytes).length + (mid 11 5 0 [1, 2]).payload.length := by decide

theorem witness_OrphanIsReportedAndDropped :
    (fin 11 6 [1]).isFec = false ∧ (fin 11 6 [1]).isStart = false ∧ (fin 11 6 [1]).sequenceNumber ∉ open5.dw ∧
    mapGet open5.fb (fin 11 6 [1]).typeOrCount = none ∧
    (fin 11 6 [1]).isEnd = true ∧ (mid 11 6 0 [1]).isEnd = false := by decide

theorem witness_EndEmitsTheBuffer :
    (fin 11 5 [1]).isFec = false ∧ (fin 11 5 [1]).isStart = false ∧ (fin 11 5 [1]).isEnd = true ∧
    (fin 11 5 [1]).sequenceNumber ∉ open5.dw ∧ mapGet open5.fb (fin 11 5 [1]).typeOrCount = some [0x65] ∧
    ([0x65] : Bytes).length + (fin 11 5 [1]).payload.length ≤ tiny.fragBufCap ∧
    tiny.fragBufCap < ([0x65] : Bytes).length + (fin 11 5 [1, 2]).payload.length ∧
    (0x65 : Byte).toNat % 32 = (fin 11 5 [1]).typeOrCount.toNat ∧
    mapGet (⟨[(3, [0x47])], [10], some 10, 0, 0⟩ : RsmState).fb (fin 11 3 [1]).typeOrCount = some [0x47] ∧
    (0x47 : Byte).toNat % 32 ≠ (fin 11 3 [1]).typeOrCount.toNat ∧
    mapGet (⟨[(0, [])], [10], some 10, 0, 0⟩ : RsmState).fb (fin 11 0 []).typeOrCount = some [] ∧
    [] ++ (fin 11 0 []).payload = [] := by decide

theorem witness_OtherTypesBuffersAreUntouched : (5 : UnitType) ≠ (mid 11 6 0 []).typeOrCount := by decide

theorem witness_SecondCopyHasNoEffect : (start 11 5 [1]).isFec = false := by decide

/-- A unit of type 5 with a unit of type 1 between its fragments, its length exactly the cap. -/
theorem witness_FragmentedUnitRoundTrip :
    (start 20 5 [0x65]).isFec = false ∧ (start 20 5 [0x65]).isStart = true ∧ (start 20 5 [0x65]).isEnd = false ∧
    (fin 23 5 [0x03]).isFec = false ∧ (fin 23 5 [0x03]).isStart = false ∧ (fin 23 5 [0x03]).isEnd = true ∧
    (∀ m ∈ [single 21 1 [0x41], mid 22 5 0 [0x01, 0x02]],
      m.isFec = false ∧ (m.typeOrCount = 5 → m.isStart = false ∧ m.isEnd = false)) ∧
    ((start 20 5 [0x65] :: ([single 21 1 [0x41], mid 22 5 0 [0x01, 0x02]] ++ [fin 23 5 [0x03]])).map
      (fun m => m.sequenceNumber)).Nodup ∧
    (∀ m ∈ start 20 5 [0x65] :: ([single 21 1 [0x41], mid 22 5 0 [0x01, 0x02]] ++ [fin 23 5 [0x03]]),
      m.sequenceNumber ∉ open5.dw) ∧
    ([0x65, 0x01, 0x02, 0x03] : Bytes).length ≤ roomy.fragBufCap := by decide

theorem witness_EveryStepKeepsTheInvariant :
    Inv { v1 with input := [.datagram [0x00, 0x68, 0x84, 0x07, 0x0F, 0x0E]] } ∧
    ∃ t, step { v1 with input := [.datagram [0x00, 0x68, 0x84, 0x07, 0x0F, 0x0E]] } = .next t ∧
      t.fec.recoveredCount = 1 := ⟨by decide, _, rfl, by decide⟩

theorem witness_OnlyResetsLowerCounters :
    ∃ t, exec (.fecProcess (parity 104 4 7 [0x0F, 0x0E])) v1 = .next t ∧
      v1.fec.recoveredCount < t.fec.recoveredCount := ⟨_, rfl, by decide⟩

theorem witness_ParametersAreNeverWritten : ∃ t, exec .reset v1 = .next t ∧ t.cfg = v1.cfg := ⟨_, rfl, rfl⟩

theorem witness_EventWordsHoldTheirFields : 0 < 4 ∧ 3 < 4 := by decide

end Sys2Proof.Tests
end

section
/-! PROOFS. The family of 30_encoding.md: the header fields as numbers (R63, R64), the class table (R66), and the
obligations about them. -/

namespace Sys2Proof.Machine

/-! ## Header fields as numbers (30_encoding.md R63, R64) -/

/-- Two bytes read big-endian (20_memory.md R42). -/
theorem toNat_append_byte (hi lo : Byte) : (hi ++ lo : SeqNum).toNat = hi.toNat * 256 + lo.toNat := by
  rw [BitVec.toNat_append, ← Nat.shiftLeft_add_eq_or_of_lt lo.isLt, Nat.shiftLeft_eq]

@[simp] theorem lowFive_toNat (b : Byte) : (lowFive b).toNat = b.toNat % 32 := by
  simp [lowFive, BitVec.extractLsb'_toNat]

theorem seq_hi_toNat (v : SeqNum) : (v.extractLsb' 8 8).toNat = v.toNat / 256 := by
  rw [BitVec.extractLsb'_toNat, Nat.shiftRight_eq_div_pow]; omega

theorem seq_lo_toNat (v : SeqNum) : (v.extractLsb' 0 8).toNat = v.toNat % 256 := by
  rw [BitVec.extractLsb'_toNat, Nat.shiftRight_zero]

theorem flagsByte_toNat (isFec isStart isEnd : Bool) (t : UnitType) :
    (flagsByte isFec isStart isEnd t).toNat =
      128 * isFec.toNat + 64 * isStart.toNat + 32 * isEnd.toNat + t.toNat := by
  revert isFec isStart isEnd t; decide

/-! ## The two codec commands, by outcome (40_codec.md R90 to R92) -/

theorem exec_parse_some {dg : Bytes} {p : Packet} (hp : parse dg = some p) {s : State}
    (h : dg.length ≤ s.cfg.maxDgram) : exec (.parse dg) s = .next (s.withOut ⟨[], [], .packet p⟩) := by
  rw [exec, execParse, boundedDatagram_le h, hp, answer]

theorem exec_parse_none {dg : Bytes} (hp : parse dg = none) {s : State}
    (h : dg.length ≤ s.cfg.maxDgram) : exec (.parse dg) s = .next (s.withOut ⟨[], [], .malformedPacket⟩) := by
  rw [exec, execParse, boundedDatagram_le h, hp, answer]

theorem exec_serialize_le {p : Packet} {s : State} (h : p.payload.length ≤ s.cfg.maxPayload) :
    exec (.serialize p) s = .next (s.withOut ⟨[], [], .datagram (serialize p)⟩) := by
  rw [exec, execSerialize, if_neg (Nat.not_lt.mpr h), answer]

/-! ## The class table (30_encoding.md R66) -/

theorem packetOfClass_classify (p : Packet) : packetOfClass (classify p) = some p := by
  obtain ⟨_, isFec, isStart, isEnd, _, _, _⟩ := p
  cases isFec with
  | true => rfl
  | false => cases isStart <;> cases isEnd <;> rfl

theorem decodeDatagram_of_parse {dg : Bytes} {p : Packet} (h : parse dg = some p) :
    decodeDatagram dg = classify p := by
  rw [decodeDatagram, h]

theorem decodeDatagram_short {dg : Bytes} (h : dg.length < 4) : decodeDatagram dg = .rx dg := by
  rw [decodeDatagram, parse_eq_none_iff.mpr h]

/-- The masks of the table lie within bits 15 to 13 of the header word, so a row reads nothing else of it. -/
theorem covers_classBits {r : ClassRow} (hr : r ∈ classRows) (h : BitVec 32) :
    r.covers h = r.covers (h &&& 0x0000E000) := by
  have hmask : ∀ r ∈ classRows, 0x0000E000 &&& r.mask = r.mask := by decide
  rw [ClassRow.covers, ClassRow.covers, BitVec.and_assoc, hmask r hr]

theorem flags_and_classMask (b : Byte) :
    b &&& 0xE0#8 = flagsByte (b.getLsbD 7) (b.getLsbD 6) (b.getLsbD 5) 0 := by
  revert b; decide

/-- The header word with the three class bits and zeros elsewhere (30_encoding.md R62, R64). -/
def classWord (isFec isStart isEnd : Bool) : BitVec 32 := 0#8 ++ 0#8 ++ flagsByte isFec isStart isEnd 0 ++ 0#8

/-- Bits 15 to 13 of the header word are bits 7 to 5 of the flags byte (30_encoding.md R62). -/
theorem headerWord_classBits (b0 b1 b2 b3 : Byte) :
    (b0 ++ b1 ++ b2 ++ b3 : BitVec 32) &&& 0x0000E000 =
      classWord (b2.getLsbD 7) (b2.getLsbD 6) (b2.getLsbD 5) := by
  have hmask : (0x0000E000 : BitVec 32) = 0#8 ++ 0#8 ++ 0xE0#8 ++ 0#8 := by decide
  rw [hmask, BitVec.and_append, BitVec.and_append, BitVec.and_append, flags_and_classMask, classWord]
  simp only [BitVec.and_zero]

/-- Class bits fall in one row of the table, the row of the class `classify` reads from them. -/
theorem classRows_filter_classWord (isFec isStart isEnd : Bool) :
    ∃ row, classRows.filter (fun r => r.covers (classWord isFec isStart isEnd)) = [row] ∧
      ∀ seq n gid payload,
        classMnemonic (classify ⟨seq, isFec, isStart, isEnd, n, gid, payload⟩) = some row.mnemonic :=
  match isFec, isStart, isEnd with
  | true, a, e => ⟨⟨"DG.FEC", 0x00008000, 0x00008000⟩, by revert a e; decide, fun _ _ _ _ => rfl⟩
  | false, true, true => ⟨⟨"DG.SINGLE", 0x0000E000, 0x00006000⟩, by decide, fun _ _ _ _ => rfl⟩
  | false, true, false => ⟨⟨"DG.START", 0x0000E000, 0x00004000⟩, by decide, fun _ _ _ _ => rfl⟩
  | false, false, false => ⟨⟨"DG.MID", 0x0000E000, 0x00000000⟩, by decide, fun _ _ _ _ => rfl⟩
  | false, false, true => ⟨⟨"DG.END", 0x0000E000, 0x00002000⟩, by decide, fun _ _ _ _ => rfl⟩

/-! ## The obligations -/

/-- Settles O12: a row reads only the three class bits of the header word, and on those the table and `classify`
agree, bit pattern by bit pattern. -/
theorem everyHeaderHasExactlyOneClass : Obligations.EveryHeaderHasExactlyOneClass := by
  constructor
  · intro b0 b1 b2 b3 payload
    have hp := parse_cons b0 b1 b2 b3 payload
    obtain ⟨row, hrow, hname⟩ :=
      classRows_filter_classWord (b2.getLsbD 7) (b2.getLsbD 6) (b2.getLsbD 5)
    refine ⟨row, _, _, ?_, congrArg Except.ok (decodeDatagram_of_parse hp), hname _ _ _ _, hp,
      packetOfClass_classify _⟩
    rw [← hrow]
    refine List.filter_congr fun r hr => ?_
    rw [covers_classBits hr, headerWord_classBits]
  · intro dg i hlen hdec
    rw [decode, decodeDatagram_short hlen] at hdec
    obtain rfl := Except.ok.inj hdec
    rfl

/-- Settles O7, by PARSE's packet (`parse_cons`) and its fields as numbers. -/
theorem parseReadsTheHeaderFields : Obligations.ParseReadsTheHeaderFields := by
  constructor
  · intro s b0 b1 b2 b3 payload hlen
    have hdg : (b0 :: b1 :: b2 :: b3 :: payload).length ≤ s.cfg.maxDgram := by
      simp only [List.length_cons, Config.maxDgram, Config.hdrLen]; omega
    exact ⟨_, exec_parse_some (parse_cons b0 b1 b2 b3 payload) hdg, toNat_append_byte b0 b1,
      Nat.testBit_eq_decide_div_mod_eq, Nat.testBit_eq_decide_div_mod_eq, Nat.testBit_eq_decide_div_mod_eq,
      lowFive_toNat b2, rfl, rfl⟩
  · intro s dg hlen
    exact exec_parse_none (parse_eq_none_iff.mpr hlen) (by simp only [Config.maxDgram, Config.hdrLen]; omega)

/-- Settles O8, by the four header bytes (`header_eq`) and their numbers. -/
theorem serializeAssemblesTheHeader : Obligations.SerializeAssemblesTheHeader := by
  intro s p hlen
  have hexec := exec_serialize_le hlen
  rw [serialize, header_eq] at hexec
  exact ⟨_, _, _, hexec, seq_hi_toNat _, seq_lo_toNat _, flagsByte_toNat _ _ _ _⟩

end Sys2Proof.Machine
end

section
/-! PROOFS. The family of 41_fec.md: the group step 2 leaves (R112), the table FEC.PROCESS leaves where no group is
removed (R121, R122), when step 3 recovers nothing (R114), and the obligations about them. -/

namespace Sys2Proof.Machine

/-! ## The three FECEngine commands (41_fec.md R110, R125, R126) -/

theorem exec_fecProcess (p : Packet) (s : State) :
    exec (.fecProcess p) s = .next ((s.withFec (fecStateAfter s.cfg s.fec p)).withOut
      ⟨[], [], .recovered (recoveredBy s.cfg s.fec p).toList⟩) := rfl

theorem exec_fecGetRc (s : State) :
    exec .fecGetRc s = .next (s.withOut ⟨[], [], .counter s.fec.recoveredCount⟩) := rfl

theorem exec_fecReset (s : State) : exec .fecReset s = .next ((s.withFec .reset).withOut .empty) := rfl

/-! ## Steps 1 and 2: the group an FEC packet leaves (41_fec.md R111, R112) -/

theorem groupAfterStore_fecPacket {p : Packet} (h : p.isFec = true) (c : Config) (f : FecState) :
    groupAfterStore c f p =
      { lookupOrCreate c f p.groupId with fec := some p, expectedCount := p.typeOrCount } :=
  storePacket_fec h _

/-- The media packets step 2 starts from: the tracked group's, or none in a group just created. -/
theorem lookupOrCreate_media {c : Config} {f : FecState} {gid : GroupId} {media : Map 16 Packet}
    (h : (∃ g, mapGet f.grp gid = some g ∧ g.media = media) ∨ (mapGet f.grp gid = none ∧ media = [])) :
    (lookupOrCreate c f gid).media = media := by
  rcases h with ⟨g, hg, rfl⟩ | ⟨habs, rfl⟩
  · rw [lookupOrCreate_present hg]
  · rw [lookupOrCreate_absent habs]; rfl

/-! ## Steps 4 and 5 where no group is removed (41_fec.md R121, R122) -/

theorem isComplete_eq_false {g : Group} (h : g.media.length < g.expectedCount.toNat) : isComplete g = false :=
  decide_eq_false (Nat.not_le.mpr h)

theorem grpAfterCompletion_incomplete {c : Config} {f : FecState} {p : Packet}
    (h : (groupAfterStore c f p).media.length < (groupAfterStore c f p).expectedCount.toNat) :
    grpAfterCompletion c f p = mapSet f.grp p.groupId (groupAfterStore c f p) := by
  rw [grpAfterCompletion, isComplete_eq_false h]; rfl

/-- A table within a bound stays within it when an entry is stored, if an absent key finds a place free. -/
theorem length_mapSet_le {w n : Nat} {α : Type} {m : Map w α} (hm : mapWf m) (hlen : m.length ≤ n) {k : BitVec w}
    (hroom : mapGet m k = none → m.length < n) (v : α) : (mapSet m k v).length ≤ n := by
  cases hk : mapGet m k with
  | none => rw [length_mapSet_absent hk]; exact hroom hk
  | some v' => rw [length_mapSet_present hm hk]; exact hlen

/-- With room in the table and the group incomplete, FEC.PROCESS leaves the group as step 2 left it and removes none. -/
theorem fecStateAfter_grp_of_room {c : Config} {f : FecState} {p : Packet} (hw : mapWf f.grp)
    (hlen : f.grp.length ≤ c.maxGroups) (hroom : mapGet f.grp p.groupId = none → f.grp.length < c.maxGroups)
    (hinc : (groupAfterStore c f p).media.length < (groupAfterStore c f p).expectedCount.toNat) :
    (fecStateAfter c f p).grp = mapSet f.grp p.groupId (groupAfterStore c f p) := by
  rw [fecStateAfter, grpAfterCompletion_incomplete hinc]
  exact evict_of_le (length_mapSet_le hw hlen hroom _)

/-! ## Step 3: nothing recovered (41_fec.md R114, R119) -/

/-- The recovery condition of 41_fec.md R114, negated. -/
theorem recoveredBy_eq_none {c : Config} {f : FecState} {p : Packet}
    (h : (groupAfterStore c f p).fec = none ∨
      ((groupAfterStore c f p).media.length : Int) ≠ ((groupAfterStore c f p).expectedCount.toNat : Int) - 1) :
    recoveredBy c f p = none := by
  rw [Option.eq_none_iff_forall_ne_some]
  intro q hq
  obtain ⟨fec, _, hfec, hcount, _, _⟩ := recover_eq_some_iff.mp hq
  rcases h with hnone | hne
  · rw [hnone] at hfec; cases hfec
  · omega

theorem fecStateAfter_recoveredCount_of_none {c : Config} {f : FecState} {p : Packet} (h : recoveredBy c f p = none) :
    (fecStateAfter c f p).recoveredCount = f.recoveredCount := by
  rw [fecStateAfter, h]

/-! ## The obligations -/

/-- Settles O30: step 2 on an FEC packet (`groupAfterStore_fecPacket`), and its group found again in the table FEC.PROCESS
leaves, since steps 4 and 5 remove nothing (`fecStateAfter_grp_of_room`). -/
theorem redundancyPacketIsStored : Obligations.RedundancyPacketIsStored := by
  intro s p media hp hmedia
  have hstore := groupAfterStore_fecPacket hp s.cfg s.fec
  have hkept : (groupAfterStore s.cfg s.fec p).media = media := by
    rw [hstore]; exact lookupOrCreate_media hmedia
  have hfec : (groupAfterStore s.cfg s.fec p).fec = some p := by rw [hstore]
  have hcount : (groupAfterStore s.cfg s.fec p).expectedCount = p.typeOrCount := by rw [hstore]
  refine ⟨hfec, hcount, hkept, fun hw hlen hroom hshort => ⟨_, _, exec_fecProcess p s, ?_, hfec, hcount, hkept⟩⟩
  rw [State.withOut_fec, State.withFec_fec,
    fecStateAfter_grp_of_room hw hlen hroom (by rw [hkept, hcount]; exact hshort), mapGet_mapSet_same]

/-- Settles O32: the condition for a recovery fails (`recoveredBy_eq_none`), so none is returned and none counted. -/
theorem noRecoveryUnlessOneIsMissing : Obligations.NoRecoveryUnlessOneIsMissing := by
  intro s p h
  have hnone := recoveredBy_eq_none h
  exact ⟨_, exec_fecProcess p s, by rw [State.withOut_out, hnone]; rfl, fecStateAfter_recoveredCount_of_none hnone⟩

/-- Settles O3: code 0x22 decodes to FEC.RESET, whose next state `exec_fecReset` gives whole. -/
theorem fecResetClearsOnlyFecEngine : Obligations.FecResetClearsOnlyFecEngine :=
  ⟨by decide, exec_fecReset⟩

/-- Settles O5: code 0x21 decodes to FEC.GETRC; its answer leaves FECEngine alone (`State.withOut_fec`), so the second
answer is the first. -/
theorem fecGetRcReturnsRecoveredCount : Obligations.FecGetRcReturnsRecoveredCount := by
  refine ⟨by decide, fun s => ⟨_, exec_fecGetRc s, rfl, ?_⟩⟩
  rw [exec_fecGetRc, State.withOut_fec, State.withOut_withOut]

end Sys2Proof.Machine
end

section
/-! PROOFS. The family of 42_reassembler.md: a packet that passed the dedup check up to the state machine (R153, R156,
R157), the events a fragment adds (R156), the orphans (R163, R165), two runs that differ in sequence numbers only
(R158), and the obligations about them. -/

namespace Sys2Proof.Machine

/-! ## The commands (42_reassembler.md R150, R180) -/

theorem exec_rsmProcess (p : Packet) (s : State) :
    exec (.rsmProcess p) s = .next ((s.withRsm (reassemble s.cfg p s.rsm).rsm).withOut
      ⟨(reassemble s.cfg p s.rsm).units, (reassemble s.cfg p s.rsm).events, .nothing⟩) := rfl

theorem exec_rsmReset (s : State) : exec .rsmReset s = .next ((s.withRsm .reset).withOut .empty) := rfl

/-! ## Up to the state machine (42_reassembler.md R153 to R157) -/

/-- What the state machine finds of a packet that passed the dedup check: its number inserted and last seen, the
discontinuity reported. -/
def accepted (c : Config) (p : Packet) (r : RsmState) : Reassembly :=
  (Reassembly.start { r with dw := windowInsert c r.dw p.sequenceNumber, lastSeq := some p.sequenceNumber }).warn
    (gapWarning r.lastSeq p.sequenceNumber)

theorem acceptPacket_eq (c : Config) (p : Packet) (r : RsmState) :
    acceptPacket c p r = fragment c p (accepted c p r) := rfl

@[simp] theorem accepted_rsm (c : Config) (p : Packet) (r : RsmState) :
    (accepted c p r).rsm =
      { r with dw := windowInsert c r.dw p.sequenceNumber, lastSeq := some p.sequenceNumber } :=
  Reassembly.warn_rsm _ _

@[simp] theorem accepted_units (c : Config) (p : Packet) (r : RsmState) : (accepted c p r).units = [] :=
  Reassembly.warn_units _ _

@[simp] theorem accepted_events (c : Config) (p : Packet) (r : RsmState) :
    (accepted c p r).events = (gapWarning r.lastSeq p.sequenceNumber).toList :=
  Reassembly.warn_events _ _

/-- The window after RSM.PROCESS (42_reassembler.md R151 to R154). -/
theorem reassemble_dw (c : Config) (p : Packet) (r : RsmState) :
    (reassemble c p r).rsm.dw =
      if p.isFec = true ∨ p.sequenceNumber ∈ r.dw then r.dw else windowInsert c r.dw p.sequenceNumber := by
  rcases reassemble_cases c p r with ⟨hfec, e⟩ | ⟨_, hdup, e⟩ | ⟨hmedia, hnew, e⟩ <;> rw [e]
  · rw [if_pos (.inl hfec)]; rfl
  · rw [if_pos (.inr hdup)]; rfl
  · rw [if_neg (by simp [hmedia, hnew]), acceptPacket_dw]

/-! ## The discontinuity report (42_reassembler.md R156) -/

/-- The successor modulo 65536 as a number. -/
theorem eq_succ_iff_toNat {s l : SeqNum} : s = l + 1 ↔ s.toNat = (l.toNat + 1) % 65536 := by
  rw [BitVec.toNat_eq, BitVec.toNat_add]; rfl

theorem gapWarning_succ {s l : SeqNum} (h : s = l + 1) : gapWarning (some l) s = none := if_pos h

theorem gapWarning_gap {s l : SeqNum} (h : s ≠ l + 1) : gapWarning (some l) s = some (.seqGap l s) := if_neg h

theorem eq_seqGap_of_gapWarning {last : Option SeqNum} {s : SeqNum} {e : Event} (h : gapWarning last s = some e) :
    ∃ l, e = .seqGap l s := by
  cases last with
  | none => cases h
  | some l =>
    by_cases hs : s = l + 1
    · rw [gapWarning_succ hs] at h; cases h
    · rw [gapWarning_gap hs] at h; exact ⟨l, (Option.some.inj h).symm⟩

theorem mismatchWarning_ne_seqGap (data : Bytes) (hdr : UnitType) (l l' : SeqNum) :
    mismatchWarning data hdr ≠ some (.seqGap l l') := by
  unfold mismatchWarning; split <;> simp

/-- The state machine appends to the events, and never a discontinuity. -/
theorem fragment_events (c : Config) (p : Packet) (o : Reassembly) :
    ∃ rest, (∀ l l', .seqGap l l' ∉ rest) ∧ (fragment c p o).events = o.events ++ rest := by
  rcases fragment_cases c p o with ⟨d, e⟩ | ⟨d, _, e⟩ | ⟨d, _, e⟩ | e | ⟨pos, e⟩ <;> rw [e]
  · exact ⟨_, by simp [mismatchWarning_ne_seqGap], emit_events _ _ _ _⟩
  · exact ⟨_, by simp [mismatchWarning_ne_seqGap], emit_events _ _ _ _⟩
  · exact ⟨[], by simp, (List.append_nil _).symm⟩
  · exact ⟨_, by simp, overflow_events _ _⟩
  · exact ⟨_, by simp, Reassembly.raise_events _ _⟩

/-- The events of a packet that passed the dedup check: its discontinuity if it has one, then others. -/
theorem acceptPacket_events (c : Config) (p : Packet) (r : RsmState) :
    ∃ rest, (∀ l l', .seqGap l l' ∉ rest) ∧
      (acceptPacket c p r).events = (gapWarning r.lastSeq p.sequenceNumber).toList ++ rest := by
  obtain ⟨rest, hrest, hev⟩ := fragment_events c p (accepted c p r)
  exact ⟨rest, hrest, by rw [acceptPacket_eq, hev, accepted_events]⟩

/-! ## Orphans (42_reassembler.md R163, R165) -/

/-- The position an END or MID packet is reported with (60_exceptions.md R221). -/
def orphanPos (p : Packet) : FragmentPos := if p.isEnd then .final else .middle

/-- An END or MID packet without an open buffer of its type only raises EV_ORPHAN. -/
theorem fragment_orphan {p : Packet} (hs : p.isStart = false) {o : Reassembly}
    (hnone : mapGet o.rsm.fb p.typeOrCount = none) (c : Config) :
    fragment c p o = o.raise (.orphan p.sequenceNumber p.typeOrCount (orphanPos p)) := by
  cases he : p.isEnd with
  | true => simp [fragment, orphanPos, hs, he, fragEnd, hnone]
  | false => simp [fragment, orphanPos, hs, he, fragMid, hnone]

theorem acceptPacket_orphan {p : Packet} (hs : p.isStart = false) {r : RsmState}
    (hnone : mapGet r.fb p.typeOrCount = none) (c : Config) :
    acceptPacket c p r =
      (accepted c p r).raise (.orphan p.sequenceNumber p.typeOrCount (orphanPos p)) :=
  fragment_orphan (o := accepted c p r) hs (by rw [accepted_rsm]; exact hnone) c

/-! ## Two runs that differ in sequence numbers only (42_reassembler.md R158) -/

/-- The second operation left the units, buffers and counters the first one left; window, last-seen number and events
may differ. -/
structure Reassembly.SameEffect (o o' : Reassembly) : Prop where
  units : o'.units = o.units
  fb : o'.rsm.fb = o.rsm.fb
  unitsReassembled : o'.rsm.unitsReassembled = o.rsm.unitsReassembled
  packetsDeduplicated : o'.rsm.packetsDeduplicated = o.rsm.packetsDeduplicated

section
variable {o o' : Reassembly} (h : o.SameEffect o')
include h

/-- Events are no part of the effect. -/
theorem Reassembly.SameEffect.raise (e e' : Event) : (o.raise e).SameEffect (o'.raise e') :=
  ⟨h.units, h.fb, h.unitsReassembled, h.packetsDeduplicated⟩

theorem Reassembly.SameEffect.setFb (fb : Map 5 Bytes) : (o.setFb fb).SameEffect (o'.setFb fb) :=
  ⟨h.units, rfl, h.unitsReassembled, h.packetsDeduplicated⟩

theorem emit_sameEffect (c : Config) (t : UnitType) (d : Bytes) :
    (emit c t d o).SameEffect (emit c t d o') where
  units := by rw [emit_units, emit_units, h.units]
  fb := by rw [emit_rsm, emit_rsm, h.fb]
  unitsReassembled := by rw [emit_rsm, emit_rsm, h.unitsReassembled]
  packetsDeduplicated := by rw [emit_rsm, emit_rsm, h.packetsDeduplicated]

theorem overflow_sameEffect (p : Packet) (x : SeqNum) :
    (overflow p o).SameEffect (overflow { p with sequenceNumber := x } o') := by
  unfold overflow
  rw [h.fb]
  exact (h.setFb _).raise _ _

theorem fragStart_sameEffect (c : Config) (p : Packet) (x : SeqNum) :
    (fragStart c p o).SameEffect (fragStart c { p with sequenceNumber := x } o') := by
  unfold fragStart
  dsimp only
  rw [h.fb]
  split
  · exact overflow_sameEffect h p x
  · exact h.setFb _

theorem fragEnd_sameEffect (c : Config) (p : Packet) (x : SeqNum) :
    (fragEnd c p o).SameEffect (fragEnd c { p with sequenceNumber := x } o') := by
  unfold fragEnd
  dsimp only
  rw [h.fb]
  split
  · exact h.raise _ _
  · split
    · exact overflow_sameEffect h p x
    · exact emit_sameEffect (h.setFb _) _ _ _

theorem fragMid_sameEffect (c : Config) (p : Packet) (x : SeqNum) :
    (fragMid c p o).SameEffect (fragMid c { p with sequenceNumber := x } o') := by
  unfold fragMid
  dsimp only
  rw [h.fb]
  split
  · exact h.raise _ _
  · split
    · exact overflow_sameEffect h p x
    · exact h.setFb _

/-- No position of the state machine lets the packet's number decide anything but events. -/
theorem fragment_sameEffect (c : Config) (p : Packet) (x : SeqNum) :
    (fragment c p o).SameEffect (fragment c { p with sequenceNumber := x } o') := by
  unfold fragment
  dsimp only
  split
  · exact emit_sameEffect h _ _ _
  · exact fragStart_sameEffect h c p x
  · exact fragEnd_sameEffect h c p x
  · exact fragMid_sameEffect h c p x

end

theorem accepted_sameEffect (c : Config) (p : Packet) (r : RsmState) (x : SeqNum) (last : Option SeqNum) :
    (accepted c p r).SameEffect (accepted c { p with sequenceNumber := x } { r with lastSeq := last }) := by
  constructor <;> simp

theorem reassemble_sameEffect (c : Config) (p : Packet) (r : RsmState) {x : SeqNum} (last : Option SeqNum)
    (hx : x ∈ r.dw ↔ p.sequenceNumber ∈ r.dw) :
    (reassemble c p r).SameEffect (reassemble c { p with sequenceNumber := x } { r with lastSeq := last }) := by
  rcases reassemble_cases c p r with ⟨hfec, e⟩ | ⟨hmedia, hdup, e⟩ | ⟨hmedia, hnew, e⟩ <;> rw [e]
  · rw [reassemble_fec (p := { p with sequenceNumber := x }) hfec]
    exact ⟨rfl, rfl, rfl, rfl⟩
  · rw [reassemble_duplicate (p := { p with sequenceNumber := x }) hmedia (r := { r with lastSeq := last })
      (hx.mpr hdup)]
    exact ⟨rfl, rfl, rfl, rfl⟩
  · rw [reassemble_new (p := { p with sequenceNumber := x }) hmedia (r := { r with lastSeq := last })
      (mt hx.mp hnew)]
    exact fragment_sameEffect (accepted_sameEffect c p r x last) c p x

/-! ## The obligations -/

/-- Settles O44: the discontinuity report stands first (`acceptPacket_events`), and whether there is one is a matter of
the successor as a number (`eq_succ_iff_toNat`). -/
theorem sequenceGapIsReported : Obligations.SequenceGapIsReported := by
  refine fun s p => ⟨_, exec_rsmProcess p s, ?_, fun hmedia hnew => ?_⟩
  · rw [State.withOut_out]
    rcases reassemble_cases s.cfg p s.rsm with ⟨_, e⟩ | ⟨_, _, e⟩ | ⟨hmedia, hnew, _⟩
    · exact fun _ => congrArg Reassembly.events e
    · exact fun _ => congrArg Reassembly.events e
    · simp [hmedia, hnew]
  · obtain ⟨rest, hrest, hev⟩ := acceptPacket_events s.cfg p s.rsm
    rw [State.withOut_out, reassemble_new hmedia hnew, hev]
    refine ⟨rest, hrest, fun hnone => by rw [hnone]; rfl, fun l hl => ⟨fun hsucc => ?_, fun hgap => ?_⟩⟩
    · rw [hl, gapWarning_succ (eq_succ_iff_toNat.mpr hsucc)]; rfl
    · rw [hl, gapWarning_gap (mt eq_succ_iff_toNat.mp hgap)]; rfl

/-- Settles O45: RSM.PROCESS on the changed packet and last-seen number has the same effect (`reassemble_sameEffect`),
and the window does not read the last-seen number (`reassemble_dw`). -/
theorem discontinuityIsReportOnly : Obligations.DiscontinuityIsReportOnly := by
  intro s p x last hx
  have heff := reassemble_sameEffect s.cfg p s.rsm last hx
  refine ⟨_, _, exec_rsmProcess _ _, exec_rsmProcess _ _, heff.units, heff.fb, heff.unitsReassembled,
    heff.packetsDeduplicated, ?_⟩
  rintro rfl
  rw [State.withOut_rsm, State.withOut_rsm, State.withRsm_rsm, State.withRsm_rsm, reassemble_dw, reassemble_dw]

/-- Settles O49: a new END or MID packet without an open buffer only adds its EV_ORPHAN (`acceptPacket_orphan`) to what
was done up to the state machine (`accepted_rsm`, `accepted_events`). -/
theorem orphanIsReportedAndDropped : Obligations.OrphanIsReportedAndDropped := by
  intro s p hmedia hstart hnew hnone
  have hexec := exec_rsmProcess p s
  rw [reassemble_new hmedia hnew, acceptPacket_orphan hstart hnone, Reassembly.raise_rsm, Reassembly.raise_units,
    Reassembly.raise_events, accepted_rsm, accepted_units, accepted_events] at hexec
  refine ⟨_, (gapWarning s.rsm.lastSeq p.sequenceNumber).toList, hexec, rfl, fun he => ?_, fun he => ?_,
    fun e hgap => ?_, rfl, rfl, rfl, mem_windowInsert_self _ _ _, rfl, rfl⟩
  · simp [orphanPos, he]
  · simp [orphanPos, he]
  · exact eq_seqGap_of_gapWarning (Option.mem_toList.mp hgap)

/-- Settles O4: code 0x33 decodes to RSM.RESET, whose next state `exec_rsmReset` gives whole. -/
theorem rsmResetClearsOnlyReassembler : Obligations.RsmResetClearsOnlyReassembler :=
  ⟨by decide, exec_rsmReset⟩

/-- Settles O41, by the first of RSM.PROCESS's outcomes (`reassemble_fec`). -/
theorem reassemblerIgnoresFecPackets : Obligations.ReassemblerIgnoresFecPackets := by
  intro s p hfec
  rw [exec_rsmProcess, reassemble_fec hfec]; rfl

/-- Settles O42, by the second of RSM.PROCESS's outcomes (`reassemble_duplicate`); its count is `satInc`'s. -/
theorem duplicateIsCountedAndDropped : Obligations.DuplicateIsCountedAndDropped := by
  intro s p hmedia hdup
  rw [exec_rsmProcess, reassemble_duplicate hmedia hdup]; rfl

end Sys2Proof.Machine
end

section
/-! PROOFS. The family of 43_pipeline.md: RX by outcome (R200, R201), the whole state RX leaves (R202),
RESET (R209), and the obligations about them. -/

namespace Sys2Proof.Machine

/-! ## The commands, by outcome (43_pipeline.md R200, R201, R209) -/

theorem exec_rx_some {dg : Bytes} {p : Packet} (hp : parse dg = some p) {s : State}
    (h : dg.length ≤ s.cfg.maxDgram) : exec (.rx dg) s = .next (routePacket p s) := execRx_parsed hp h

theorem exec_rx_none {dg : Bytes} (hp : parse dg = none) {s : State}
    (h : dg.length ≤ s.cfg.maxDgram) : exec (.rx dg) s = .next (s.withOut ⟨[], [.malformed dg.length], .nothing⟩) := by
  rw [exec, execRx, boundedDatagram_le h, hp, dropMalformed]

theorem exec_reset (s : State) :
    exec .reset s = .next (((s.withFec .reset).withRsm .reset).withOut .empty) := rfl

/-- MAX_DGRAM leaves room for a header in every build (00_scope.md R3), so a short datagram is never refused for its
length. -/
theorem short_le_maxDgram (c : Config) {n : Nat} (h : n < 4) : n ≤ c.maxDgram :=
  h.le.trans (Nat.le_add_right Config.hdrLen c.maxPayload)

/-! ## The whole state RX leaves (43_pipeline.md R202) -/

/-- RX changes the two engines and the output ports, nothing else. -/
theorem routePacket_eq (p : Packet) (s : State) :
    routePacket p s = ((s.withFec (fecStateAfter s.cfg s.fec p)).withRsm (routePacket p s).rsm).withOut
      (routePacket p s).out := rfl

/-! ## The obligations -/

/-- Settles O21: what RX leaves (`routePacket_eq`) is, engine by engine and port by port, what the parts leave one after
the other, by whether step 3 recovers a packet (`routePacket_none`, `routePacket_some`); an FEC packet does nothing in the
second part (`reassemble_fec`). -/
theorem rxIsTheCompositionOfItsParts : Obligations.RxIsTheCompositionOfItsParts := by
  intro s dg p hp hlen
  refine ⟨_, _, _, exec_fecProcess p s, rfl, exec_rsmProcess p _, fun hfec => ?_, ?_⟩
  · rw [reassemble_fec hfec]; exact ⟨rfl, rfl, rfl⟩
  · rw [exec_rx_some hp hlen, routePacket_eq]
    cases hrec : recoveredBy s.cfg s.fec p with
    | none =>
      obtain ⟨hrsm, hout⟩ := routePacket_none hrec
      exact .inl ⟨rfl, by rw [hrsm, hout]; rfl⟩
    | some q =>
      obtain ⟨hrsm, hout⟩ := routePacket_some hrec
      exact .inr ⟨q, _, rfl, exec_rsmProcess q _, by rw [hrsm, hout]; rfl⟩

/-- Settles O1: code 0x02 decodes to RESET, whose next state `exec_reset` gives whole; FEC.RESET then RSM.RESET leave the
same (`exec_fecReset`, `exec_rsmReset`). -/
theorem resetCommandClearsBothEngines : Obligations.ResetCommandClearsBothEngines := by
  refine ⟨by decide, fun s => ⟨_, _, exec_reset s, ?fec, ?recoveredCount, ?birthCtr, ?fb, ?dw, ?lastSeq,
    ?unitsReassembled, ?packetsDeduplicated, ?cfg, ?input, ?out, exec_fecReset s, exec_rsmReset _, exec_reset _⟩⟩
  all_goals rfl

/-- Settles O19: a short datagram does not parse (`parse_eq_none_iff`) and is within MAX_DGRAM (`short_le_maxDgram`). -/
theorem shortDatagramIsDroppedWithOneEvent : Obligations.ShortDatagramIsDroppedWithOneEvent :=
  fun s _ h => exec_rx_none (parse_eq_none_iff.mpr h) (short_le_maxDgram s.cfg h)

end Sys2Proof.Machine
end

section
/-! PROOFS. The family of 30_encoding.md and 40_codec.md, both directions: PARSE and SERIALIZE, the operand readers and
their operands (log 3), the command codes (R73, R74), and the obligations that decoding and encoding undo each other. -/

namespace Sys2Proof.Machine

/-! ## PARSE and SERIALIZE (40_codec.md) -/

/-- SERIALIZE reaches exactly the datagrams PARSE accepts, and each by the packet PARSE reads. -/
theorem parse_eq_some_iff {dg : Bytes} {p : Packet} : parse dg = some p ↔ dg = serialize p := by
  constructor
  · intro h
    rcases datagram_cases dg with hlen | ⟨b0, b1, b2, b3, payload, rfl⟩
    · rw [parse_eq_none_iff.mpr hlen] at h; cases h
    · rw [parse_cons] at h
      obtain rfl := Option.some.inj h
      rw [serialize, header_eq, hi_of_append, lo_of_append, flagsByte_of_bits]; rfl
  · rintro rfl
    obtain ⟨hfec, hstart, hend, htype⟩ := flagsByte_bits p.isFec p.isStart p.isEnd p.typeOrCount
    rw [serialize, header_eq]
    exact (parse_cons _ _ _ _ p.payload).trans (by rw [seq_split, hfec, hstart, hend, htype])

theorem parse_serialize (p : Packet) : parse (serialize p) = some p := parse_eq_some_iff.mpr rfl

theorem exists_parse {dg : Bytes} (h : 4 ≤ dg.length) : ∃ p, parse dg = some p :=
  Option.ne_none_iff_exists'.mp (mt parse_eq_none_iff.mp (Nat.not_lt.mpr h))

theorem serialize_length_le {c : Config} {p : Packet} (h : p.payload.length ≤ c.maxPayload) :
    (serialize p).length ≤ c.maxDgram := by
  rw [serialize_length]; exact Nat.add_le_add_left h _

/-! ## Operands (log 3) -/

/-- Reading past the last byte appended. -/
theorem extractLsb'_append_byte {n : Nat} (w : BitVec n) (b : Byte) (start len : Nat) :
    (w ++ b).extractLsb' (start + 8) len = w.extractLsb' start len := by
  rw [BitVec.extractLsb'_append_eq_of_le (Nat.le_add_left _ _), Nat.add_sub_cancel]

theorem headerWordBytes_append (a b c d : Byte) : headerWordBytes (a ++ b ++ c ++ d) = [a, b, c, d] := by
  have h3 : (a ++ b ++ c ++ d).extractLsb' 24 8 = a := by
    rw [extractLsb'_append_byte, extractLsb'_append_byte]; exact hi_of_append a b
  have h2 : (a ++ b ++ c ++ d).extractLsb' 16 8 = b := by
    rw [extractLsb'_append_byte, extractLsb'_append_byte]; exact lo_of_append a b
  have h1 : (a ++ b ++ c ++ d).extractLsb' 8 8 = c := by
    rw [extractLsb'_append_byte]; exact BitVec.extractLsb'_append_eq_right
  have h0 : (a ++ b ++ c ++ d).extractLsb' 0 8 = d := BitVec.extractLsb'_append_eq_right
  simp only [headerWordBytes, List.cons.injEq, and_true]
  exact ⟨h3, h2, h1, h0⟩

theorem lengthBytes_toNat (a b c d : Byte) : lengthBytes (a ++ b ++ c ++ d : BitVec 32).toNat = [a, b, c, d] := by
  rw [lengthBytes, BitVec.ofNat_toNat, BitVec.setWidth_eq, headerWordBytes_append]

/-- A length field below 2^32 and the bytes it counts are read back as they were written. -/
theorem readBytes_datagramOperand {dg : Bytes} (h : dg.length < 2 ^ 32) (rest : Bytes) :
    readBytes (datagramOperand dg ++ rest) = .ok (dg, rest) := by
  have hword : (BitVec.ofNat 32 dg.length).toNat = dg.length := by
    rw [BitVec.toNat_ofNat, Nat.mod_eq_of_lt h]
  rw [datagramOperand, lengthBytes_eq]
  simp [readBytes, word_split, hword, - BitVec.toNat_ofNat]

/-- What is read is the operand's bytes, and only they are taken. -/
theorem eq_of_readBytes {ops dg rest : Bytes} (h : readBytes ops = .ok (dg, rest)) :
    ops = datagramOperand dg ++ rest := by
  match ops with
  | a :: b :: c :: d :: tail =>
    simp only [readBytes] at h
    split at h
    · cases h
    · next hlen =>
      obtain ⟨rfl, rfl⟩ := Prod.mk.inj (Except.ok.inj h)
      rw [datagramOperand, List.length_take_of_le (Nat.not_lt.mp hlen), lengthBytes_toNat]
      simp

theorem readPacket_packetOperand {p : Packet} (h : p.payload.length < 2 ^ 32) (rest : Bytes) :
    readPacket (packetOperand p ++ rest) = .ok (p, rest) := by
  have hparse := parse_serialize { p with payload := [] }
  rw [serialize, header_eq] at hparse
  rw [packetOperand, header_eq, List.append_assoc]
  simp only [List.cons_append, List.nil_append] at hparse ⊢
  rw [readPacket, readBytes_datagramOperand h, hparse]

theorem eq_of_readPacket {ops rest : Bytes} {p : Packet} (h : readPacket ops = .ok (p, rest)) :
    ops = packetOperand p ++ rest := by
  match ops with
  | a :: b :: c :: d :: tail =>
    simp only [readPacket] at h
    split at h
    · next payload rest' q hread hparse =>
      obtain ⟨rfl, rfl⟩ := Prod.mk.inj (Except.ok.inj h)
      have hhead := parse_eq_some_iff.mp hparse
      rw [serialize, header_eq] at hhead
      rw [eq_of_readBytes hread, packetOperand, header_eq]
      simp_all
    · cases h
    · cases h

theorem finishOperands_eq_ok {i j : Instr} {ops : Bytes} (h : finishOperands i ops = .ok j) : ops = [] ∧ i = j := by
  cases ops with
  | nil => exact ⟨rfl, Except.ok.inj h⟩
  | cons b ops => cases h

theorem withDatagram_datagramOperand (mk : Bytes → Instr) {dg : Bytes} (h : dg.length < 2 ^ 32) :
    withDatagram mk (datagramOperand dg) = .ok (mk dg) := by
  have hread := readBytes_datagramOperand h []
  rw [List.append_nil] at hread
  rw [withDatagram, hread]; rfl

theorem withPacket_packetOperand (mk : Packet → Instr) {p : Packet} (h : p.payload.length < 2 ^ 32) :
    withPacket mk (packetOperand p) = .ok (mk p) := by
  have hread := readPacket_packetOperand h []
  rw [List.append_nil] at hread
  rw [withPacket, hread]; rfl

theorem withDatagram_eq_ok {mk : Bytes → Instr} {ops : Bytes} {i : Instr} (h : withDatagram mk ops = .ok i) :
    ∃ dg, ops = datagramOperand dg ∧ mk dg = i := by
  unfold withDatagram at h
  split at h
  · next dg rest hread =>
    obtain ⟨rfl, hi⟩ := finishOperands_eq_ok h
    exact ⟨dg, by rw [eq_of_readBytes hread, List.append_nil], hi⟩
  · cases h

theorem withPacket_eq_ok {mk : Packet → Instr} {ops : Bytes} {i : Instr} (h : withPacket mk ops = .ok i) :
    ∃ p, ops = packetOperand p ∧ mk p = i := by
  unfold withPacket at h
  split at h
  · next p rest hread =>
    obtain ⟨rfl, hi⟩ := finishOperands_eq_ok h
    exact ⟨p, by rw [eq_of_readPacket hread, List.append_nil], hi⟩
  · cases h

/-! ## Codes (30_encoding.md R73, R74) -/

@[simp] theorem opcode_ofCode_code (o : Opcode) : Opcode.ofCode o.code = some o := by
  cases o <;> decide

@[simp] theorem selector_ofCode_code (sel : Selector) : Selector.ofCode sel.code = some sel := by
  cases sel <;> decide

theorem opcode_code_of_ofCode {b : Byte} {o : Opcode} (h : Opcode.ofCode b = some o) : o.code = b := by
  simpa using List.find?_some h

theorem selector_code_of_ofCode {b : Byte} {sel : Selector} (h : Selector.ofCode b = some sel) : sel.code = b := by
  simpa using List.find?_some h

theorem decode_command_code (o : Opcode) (ops : Bytes) :
    decode (.command (o.code :: ops)) = decodeOperands o ops := by
  rw [decode, decodeCommand, opcode_ofCode_code]

/-- The operands a command decodes with are those its encoding writes. -/
theorem encode_of_decodeOperands {o : Opcode} {ops : Bytes} {i : Instr} (h : decodeOperands o ops = .ok i) :
    encode i = .command (o.code :: ops) := by
  cases o with
  | rdStat =>
    match ops with
    | b :: rest =>
      simp only [decodeOperands] at h
      split at h
      · next sel hsel =>
        obtain ⟨rfl, rfl⟩ := finishOperands_eq_ok h
        rw [encode, selector_code_of_ofCode hsel]
      · cases h
  | rx => obtain ⟨dg, rfl, rfl⟩ := withDatagram_eq_ok h; rfl
  | parse => obtain ⟨dg, rfl, rfl⟩ := withDatagram_eq_ok h; rfl
  | serialize => obtain ⟨p, rfl, rfl⟩ := withPacket_eq_ok h; rfl
  | fecProcess => obtain ⟨p, rfl, rfl⟩ := withPacket_eq_ok h; rfl
  | rsmProcess => obtain ⟨p, rfl, rfl⟩ := withPacket_eq_ok h; rfl
  | reset | fecGetRc | fecReset | rsmGetUnits | rsmGetDedup | rsmReset =>
    obtain ⟨rfl, rfl⟩ := finishOperands_eq_ok h; rfl

/-! ## Datagram frames (30_encoding.md R66) -/

theorem decode_datagram_serialize (p : Packet) : decode (.datagram (serialize p)) = .ok (classify p) := by
  rw [decode, decodeDatagram_of_parse (parse_serialize p)]

theorem encode_of_packetOfClass {i : Instr} {p : Packet} (h : packetOfClass i = some p) :
    encode i = .datagram (serialize p) := by
  cases i with
  | dgFec | dgSingle | dgStart | dgMid | dgEnd => cases h; rfl
  | rx | reset | rdStat | parse | serialize | fecProcess | fecGetRc | fecReset
  | rsmProcess | rsmGetUnits | rsmGetDedup | rsmReset => cases h

/-! ## The obligations -/

/-- Settles O10, constructor by constructor: a class by PARSE of its datagram (`decode_datagram_serialize`), a command
by its code (`decode_command_code`) and then by the reader of its operand. -/
theorem decodeUndoesEncode : Obligations.DecodeUndoesEncode := by
  intro i henc
  cases i with
  | dgFec | dgSingle | dgStart | dgMid | dgEnd => exact decode_datagram_serialize _
  | rx dg | parse dg =>
    exact (decode_command_code _ _).trans (withDatagram_datagramOperand _ (of_decide_eq_true henc))
  | serialize p | fecProcess p | rsmProcess p =>
    exact (decode_command_code _ _).trans (withPacket_packetOperand _ (of_decide_eq_true henc))
  | rdStat sel =>
    refine (decode_command_code .rdStat [sel.code]).trans ?_
    rw [decodeOperands, selector_ofCode_code]; rfl
  | reset | fecGetRc | fecReset | rsmGetUnits | rsmGetDedup | rsmReset => exact decode_command_code _ []

/-- Settles O11: a command by its code and operands (`encode_of_decodeOperands`), a datagram by the packet PARSE reads
from it, whose class stands for that packet (`packetOfClass_classify`). -/
theorem encodeUndoesDecode : Obligations.EncodeUndoesDecode := by
  constructor
  · intro bytes i h
    match bytes with
    | code :: ops =>
      simp only [decode, decodeCommand] at h
      split at h
      · next o ho => rw [encode_of_decodeOperands h, opcode_code_of_ofCode ho]
      · cases h
  · intro dg i hlen h
    obtain ⟨p, hp⟩ := exists_parse hlen
    obtain rfl := parse_eq_some_iff.mp hp
    rw [decode_datagram_serialize] at h
    obtain rfl := Except.ok.inj h
    exact encode_of_packetOfClass (packetOfClass_classify p)

/-- Settles O9: the two commands by outcome (`exec_parse_some`, `exec_serialize_le`), and their functions inverse to
each other (`parse_eq_some_iff`). -/
theorem parseAndSerializeUndoEachOther : Obligations.ParseAndSerializeUndoEachOther := by
  constructor
  · intro s p hlen
    exact ⟨_, _, _, exec_serialize_le hlen, rfl, exec_parse_some (parse_serialize p) (serialize_length_le hlen), rfl⟩
  · intro s dg hmin hmax
    obtain ⟨p, hp⟩ := exists_parse hmin
    obtain rfl := parse_eq_some_iff.mp hp
    refine ⟨p, _, _, exec_parse_some hp hmax, rfl, exec_serialize_le ?_, rfl⟩
    rw [serialize_length] at hmax
    exact Nat.le_of_add_le_add_left hmax

/-- Settles O13: the spec's words, evaluated. -/
theorem specWordsDecode : Obligations.SpecWordsDecode := by
  refine ⟨?_, ?_, ?_, ?_, ?_, ?_, ?_, ?_, ?_, ?_⟩
  all_goals decide

end Sys2Proof.Machine
end

section
/-! PROOFS. The whole machine: what an instruction can do to each engine, once (`exec_effect`), which instructions
complete (60_exceptions.md R228), the step (20_memory.md R47, R53), and the obligations about every instruction or
every step. -/

namespace Sys2Proof.Machine

/-! ## The datagram classes and the oversize inputs (43_pipeline.md R204 to R208; 30_encoding.md R78) -/

theorem exec_of_packetOfClass {i : Instr} {p : Packet} (h : packetOfClass i = some p) (s : State) :
    exec i s = receive p s := by
  cases i with
  | dgFec | dgSingle | dgStart | dgMid | dgEnd => cases h; rfl
  | rx | reset | rdStat | parse | serialize | fecProcess | fecGetRc | fecReset
  | rsmProcess | rsmGetUnits | rsmGetDedup | rsmReset => cases h

theorem exec_class_le {i : Instr} {p : Packet} (h : packetOfClass i = some p) {s : State}
    (hlen : p.payload.length ≤ s.cfg.maxPayload) : exec i s = .next (routePacket p s) :=
  (exec_of_packetOfClass h s).trans (receive_le hlen)

theorem wf_of_packetOfClass {i : Instr} {p : Packet} (h : packetOfClass i = some p) (c : Config) :
    Instr.wf c i = decide (p.payload.length ≤ c.maxPayload) := by
  cases i with
  | dgFec | dgSingle | dgStart | dgMid | dgEnd => cases h; rfl
  | rx | reset | rdStat | parse | serialize | fecProcess | fecGetRc | fecReset
  | rsmProcess | rsmGetUnits | rsmGetDedup | rsmReset => cases h

theorem exec_rx_gt {dg : Bytes} {s : State} (h : s.cfg.maxDgram < dg.length) :
    exec (.rx dg) s = .refused (.oversizeDatagram dg.length) := boundedDatagram_gt h _

theorem exec_parse_gt {dg : Bytes} {s : State} (h : s.cfg.maxDgram < dg.length) :
    exec (.parse dg) s = .refused (.oversizeDatagram dg.length) := boundedDatagram_gt h _

theorem exec_serialize_gt {p : Packet} {s : State} (h : s.cfg.maxPayload < p.payload.length) :
    exec (.serialize p) s = .refused (.oversizePayload p.payload.length) := if_pos h

theorem exec_rdStat (sel : Selector) (s : State) :
    exec (.rdStat sel) s = .next (s.withOut ⟨[], [], .counter (selectedCounter s sel)⟩) := rfl

theorem exec_rsmGetUnits (s : State) :
    exec .rsmGetUnits s = .next (s.withOut ⟨[], [], .counter s.rsm.unitsReassembled⟩) := rfl

theorem exec_rsmGetDedup (s : State) :
    exec .rsmGetDedup s = .next (s.withOut ⟨[], [], .counter s.rsm.packetsDeduplicated⟩) := rfl

/-! ## What an instruction inside its operand contract does -/

/-- RX and the two codec commands complete within their bound, whatever the bytes. -/
theorem exec_rx_le {dg : Bytes} {s : State} (h : dg.length ≤ s.cfg.maxDgram) :
    (∃ p, exec (.rx dg) s = .next (routePacket p s)) ∨ ∃ out, exec (.rx dg) s = .next (s.withOut out) := by
  cases hp : parse dg with
  | some p => exact .inl ⟨p, exec_rx_some hp h⟩
  | none => exact .inr ⟨_, exec_rx_none hp h⟩

theorem exec_parse_le {dg : Bytes} {s : State} (h : dg.length ≤ s.cfg.maxDgram) :
    ∃ out, exec (.parse dg) s = .next (s.withOut out) := by
  cases hp : parse dg with
  | some p => exact ⟨_, exec_parse_some hp h⟩
  | none => exact ⟨_, exec_parse_none hp h⟩

/-- What an instruction can leave of FECEngine: what it was, what FEC.PROCESS leaves, or, by a reset of it, the reset
value. -/
inductive FecEffect (c : Config) (f : FecState) (i : Instr) : FecState → Prop where
  | same : FecEffect c f i f
  | process (p : Packet) : FecEffect c f i (fecStateAfter c f p)
  | reset (h : i = .reset ∨ i = .fecReset) : FecEffect c f i .reset

/-- What an instruction can leave of the Reassembler: what RSM.PROCESS leaves of a number of packets (none, one, or the
original and the recovered one), or, by a reset of it, the reset value. -/
inductive RsmEffect (c : Config) (r : RsmState) (i : Instr) : RsmState → Prop where
  | same : RsmEffect c r i r
  | process {r' : RsmState} (h : RsmEffect c r i r') (p : Packet) : RsmEffect c r i (reassemble c p r').rsm
  | reset (h : i = .reset ∨ i = .rsmReset) : RsmEffect c r i .reset

theorem routePacket_rsmEffect (p : Packet) (s : State) (i : Instr) :
    RsmEffect s.cfg s.rsm i (routePacket p s).rsm := by
  cases hrec : recoveredBy s.cfg s.fec p with
  | none => rw [(routePacket_none hrec).1]; exact .process .same p
  | some q => rw [(routePacket_some hrec).1]; exact .process (.process .same p) q

/-- The state an instruction may leave: effects on the two engines and new outputs, nothing else. -/
def Effect (i : Instr) (s t : State) : Prop :=
  FecEffect s.cfg s.fec i t.fec ∧ RsmEffect s.cfg s.rsm i t.rsm ∧ t.cfg = s.cfg ∧ t.input = s.input

theorem effect_routePacket (i : Instr) (p : Packet) (s : State) : Effect i s (routePacket p s) :=
  ⟨.process p, routePacket_rsmEffect p s i, rfl, rfl⟩

theorem effect_withOut (i : Instr) (s : State) (out : Output) : Effect i s (s.withOut out) :=
  ⟨.same, .same, rfl, rfl⟩

/-- An instruction inside the operand contract of its build completes, and this is all it can do. -/
theorem exec_of_wf {i : Instr} {s : State} (h : Instr.wf s.cfg i = true) :
    ∃ t, exec i s = .next t ∧ Effect i s t := by
  cases i with
  | dgFec | dgSingle | dgStart | dgMid | dgEnd =>
    rw [wf_of_packetOfClass rfl] at h
    exact ⟨_, exec_class_le rfl (of_decide_eq_true h), effect_routePacket _ _ _⟩
  | rx dg =>
    rcases exec_rx_le (of_decide_eq_true h) with ⟨p, e⟩ | ⟨out, e⟩
    · exact ⟨_, e, effect_routePacket _ _ _⟩
    · exact ⟨_, e, effect_withOut _ _ _⟩
  | parse dg =>
    obtain ⟨out, e⟩ := exec_parse_le (of_decide_eq_true h)
    exact ⟨_, e, effect_withOut _ _ _⟩
  | serialize p => exact ⟨_, exec_serialize_le (of_decide_eq_true h), effect_withOut _ _ _⟩
  | rdStat sel => exact ⟨_, exec_rdStat sel s, effect_withOut _ _ _⟩
  | fecGetRc => exact ⟨_, exec_fecGetRc s, effect_withOut _ _ _⟩
  | rsmGetUnits => exact ⟨_, exec_rsmGetUnits s, effect_withOut _ _ _⟩
  | rsmGetDedup => exact ⟨_, exec_rsmGetDedup s, effect_withOut _ _ _⟩
  | fecProcess p => exact ⟨_, exec_fecProcess p s, .process p, .same, rfl, rfl⟩
  | rsmProcess p => exact ⟨_, exec_rsmProcess p s, .same, .process .same p, rfl, rfl⟩
  | reset => exact ⟨_, exec_reset s, .reset (.inl rfl), .reset (.inl rfl), rfl, rfl⟩
  | fecReset => exact ⟨_, exec_fecReset s, .reset (.inr rfl), .same, rfl, rfl⟩
  | rsmReset => exact ⟨_, exec_rsmReset s, .same, .reset (.inr rfl), rfl, rfl⟩

/-- Outside the operand contract an instruction is refused. -/
theorem exec_of_not_wf {i : Instr} {s : State} (h : Instr.wf s.cfg i = false) : ∃ r, exec i s = .refused r := by
  cases i with
  | dgFec | dgSingle | dgStart | dgMid | dgEnd =>
    rw [wf_of_packetOfClass rfl] at h
    exact ⟨_, receive_gt (Nat.not_le.mp (of_decide_eq_false h))⟩
  | rx dg => exact ⟨_, exec_rx_gt (Nat.not_le.mp (of_decide_eq_false h))⟩
  | parse dg => exact ⟨_, exec_parse_gt (Nat.not_le.mp (of_decide_eq_false h))⟩
  | serialize p => exact ⟨_, exec_serialize_gt (Nat.not_le.mp (of_decide_eq_false h))⟩
  | reset | rdStat | fecProcess | fecGetRc | fecReset | rsmProcess | rsmGetUnits | rsmGetDedup | rsmReset => cases h

/-- Everything an instruction that completes did. -/
theorem exec_effect {i : Instr} {s t : State} (h : exec i s = .next t) : Effect i s t := by
  cases hwf : Instr.wf s.cfg i with
  | true =>
    obtain ⟨t', e, heff⟩ := exec_of_wf hwf
    rw [h] at e
    exact Host.Outcome.next.inj e ▸ heff
  | false =>
    obtain ⟨r, e⟩ := exec_of_not_wf hwf
    rw [h] at e; cases e

/-! ## The step (20_memory.md R47, R53; 60_exceptions.md R228) -/

theorem step_idle {s : State} (h : s.input = []) : step s = .next (s.withOut .empty) := by
  rw [step, fetch, h]

theorem step_decoded {s : State} {f : Frame} {rest : List Frame} {i : Instr} (h : s.input = f :: rest)
    (hdec : decode f = .ok i) : step s = exec i (s.withInput rest) := by
  rw [step, fetch, h]; simp only [hdec]

theorem step_undecodable {s : State} {f : Frame} {rest : List Frame} {e : DecodeError} (h : s.input = f :: rest)
    (hdec : decode f = .error e) : step s = .refused (refusalOf e) := by
  rw [step, fetch, h]; simp only [hdec]

/-- A step that completes held the state or ran an instruction on it. -/
theorem step_cases {s t : State} (h : step s = .next t) :
    t = s.withOut .empty ∨ ∃ i rest, exec i (s.withInput rest) = .next t := by
  cases hin : s.input with
  | nil => rw [step_idle hin] at h; exact .inl (Host.Outcome.next.inj h).symm
  | cons f rest =>
    cases hdec : decode f with
    | ok i => rw [step_decoded hin hdec] at h; exact .inr ⟨i, rest, h⟩
    | error e => rw [step_undecodable hin hdec] at h; cases h

/-! ## The invariant (10_state.md R19, R22, R24, R27) -/

theorem fecInv_reset (c : Config) : fecInv c .reset := by simp [FecState.reset, fecInv, mapWf]

theorem rsmInv_reset (c : Config) : rsmInv c .reset := by simp [RsmState.reset, rsmInv, mapWf]

theorem FecEffect.inv {c : Config} {f f' : FecState} {i : Instr} (h : FecEffect c f i f') (hf : fecInv c f) :
    fecInv c f' := by
  cases h with
  | same => exact hf
  | process p => exact fecStateAfter_inv hf p
  | reset _ => exact fecInv_reset c

theorem RsmEffect.inv {c : Config} (hc : 1 ≤ c.dedupCap) {r r' : RsmState} {i : Instr} (h : RsmEffect c r i r')
    (hr : rsmInv c r) : rsmInv c r' := by
  induction h with
  | same => exact hr
  | process _ p ih => exact reassemble_inv hc ih p
  | reset _ => exact rsmInv_reset c

theorem exec_inv {i : Instr} {s t : State} (h : exec i s = .next t) (hinv : Inv s) : Inv t := by
  obtain ⟨hfec, hrsm, hcfg, _⟩ := exec_effect h
  obtain ⟨⟨hsize, hpayload, hcap⟩, hf, hr⟩ := hinv
  rw [Inv, hcfg]
  exact ⟨⟨hsize, hpayload, hcap⟩, hfec.inv hf, hrsm.inv hcap hr⟩

/-! ## The counters (70_reset_and_hazards.md section 1) -/

theorem FecEffect.recoveredCount_le {c : Config} {f f' : FecState} {i : Instr} (h : FecEffect c f i f')
    (hi : i ≠ .reset) (hi' : i ≠ .fecReset) : f.recoveredCount ≤ f'.recoveredCount := by
  cases h with
  | same => exact Nat.le_refl _
  | process p =>
    rw [fecStateAfter]; dsimp only
    split
    · exact le_satInc _ _
    · exact Nat.le_refl _
  | reset h => exact absurd h (not_or.mpr ⟨hi, hi'⟩)

theorem fragment_unitsReassembled_le (c : Config) (p : Packet) (o : Reassembly) :
    o.rsm.unitsReassembled ≤ (fragment c p o).rsm.unitsReassembled := by
  rcases fragment_cases c p o with ⟨d, e⟩ | ⟨d, _, e⟩ | ⟨d, _, e⟩ | e | ⟨pos, e⟩ <;> rw [e]
  · rw [emit_rsm]; exact le_satInc _ _
  · rw [emit_rsm]; exact le_satInc _ _
  · exact Nat.le_refl _
  · exact Nat.le_refl _
  · exact Nat.le_refl _

theorem reassemble_counters_le (c : Config) (p : Packet) (r : RsmState) :
    r.unitsReassembled ≤ (reassemble c p r).rsm.unitsReassembled ∧
      r.packetsDeduplicated ≤ (reassemble c p r).rsm.packetsDeduplicated := by
  rcases reassemble_cases c p r with ⟨_, e⟩ | ⟨_, _, e⟩ | ⟨_, _, e⟩ <;> rw [e]
  · exact ⟨Nat.le_refl _, Nat.le_refl _⟩
  · exact ⟨Nat.le_refl _, le_satInc _ _⟩
  · have hunits := fragment_unitsReassembled_le c p (accepted c p r)
    rw [accepted_rsm] at hunits
    exact ⟨hunits, (acceptPacket_packetsDeduplicated c p r).ge⟩

theorem RsmEffect.counters_le {c : Config} {r r' : RsmState} {i : Instr} (h : RsmEffect c r i r')
    (hi : i ≠ .reset) (hi' : i ≠ .rsmReset) :
    r.unitsReassembled ≤ r'.unitsReassembled ∧ r.packetsDeduplicated ≤ r'.packetsDeduplicated := by
  induction h with
  | same => exact ⟨Nat.le_refl _, Nat.le_refl _⟩
  | process _ p ih =>
    obtain ⟨hu, hd⟩ := reassemble_counters_le c p _
    exact ⟨ih.1.trans hu, ih.2.trans hd⟩
  | reset h => exact absurd h (not_or.mpr ⟨hi, hi'⟩)

/-! ## Reserved codes and selectors (30_encoding.md R73, R74) -/

theorem opcode_ofCode_reserved {b : Byte}
    (h : b ∉ [0x01, 0x02, 0x03, 0x10, 0x11, 0x20, 0x21, 0x22, 0x30, 0x31, 0x32, 0x33]) :
    Opcode.ofCode b = none := by
  rw [Option.eq_none_iff_forall_ne_some]
  intro o ho
  refine h (opcode_code_of_ofCode ho ▸ ?_)
  cases o <;> decide

theorem selector_ofCode_reserved {b : Byte} (h : 3 ≤ b.toNat) : Selector.ofCode b = none := by
  rw [Option.eq_none_iff_forall_ne_some]
  intro sel hsel
  rw [← selector_code_of_ofCode hsel] at h
  revert h
  cases sel <;> decide

/-! ## Event words (60_exceptions.md R221) -/

theorem toNat_append_add {m n : Nat} (x : BitVec m) (y : BitVec n) :
    (x ++ y).toNat = x.toNat * 2 ^ n + y.toNat := by
  rw [BitVec.toNat_append, ← Nat.shiftLeft_add_eq_or_of_lt y.isLt, Nat.shiftLeft_eq]

/-! ## The obligations -/

/-- Settles O55: a step holds the state or runs an instruction (`step_cases`), and each engine keeps its invariant under
whatever an instruction can do to it (`exec_inv`). -/
theorem everyStepKeepsTheInvariant : Obligations.EveryStepKeepsTheInvariant := by
  intro s t hinv hstep
  rcases step_cases hstep with rfl | ⟨i, rest, hexec⟩
  · exact hinv
  · exact exec_inv hexec hinv

/-- Settles O16: inside the contract every instruction completes (`exec_of_wf`), outside it is refused
(`exec_of_not_wf`). -/
theorem exactlyTheWellFormedInstructionsComplete : Obligations.ExactlyTheWellFormedInstructionsComplete := by
  intro i s
  constructor
  · intro hwf
    obtain ⟨t, e, _⟩ := exec_of_wf hwf
    exact ⟨t, e⟩
  · rintro ⟨t, e⟩
    by_contra hwf
    obtain ⟨r, e'⟩ := exec_of_not_wf (Bool.eq_false_iff.mpr hwf)
    rw [e] at e'; cases e'

/-- Settles O56, engine by engine, by what an instruction can do to it (`exec_effect`). -/
theorem onlyResetsLowerCounters : Obligations.OnlyResetsLowerCounters := by
  intro i s t h
  obtain ⟨hfec, hrsm, _, _⟩ := exec_effect h
  exact ⟨hfec.recoveredCount_le, hrsm.counters_le⟩

/-- Settles O57: no effect of an instruction (`exec_effect`) is on the parameters or the port. -/
theorem parametersAreNeverWritten : Obligations.ParametersAreNeverWritten := by
  intro i s t h
  obtain ⟨_, _, hcfg, hinput⟩ := exec_effect h
  exact ⟨hcfg, hinput⟩

/-- Settles O58: every meaning replaces the output ports whole, and none reads them; constructor by constructor. -/
theorem outputPortsAreNeverRead : Obligations.OutputPortsAreNeverRead := by
  intro i s out
  cases i with
  | dgFec | dgSingle | dgStart | dgMid | dgEnd | rx | reset | rdStat | parse | serialize | fecProcess | fecGetRc
  | fecReset | rsmProcess | rsmGetUnits | rsmGetDedup | rsmReset => rfl

/-- Settles O2: the reset values, by definition of `State.reset`. -/
theorem powerOnStateIsTheResetState : Obligations.PowerOnStateIsTheResetState := by
  refine ⟨?_, ?_, ?_, ?_, ?_, ?_, ?_, ?_, ?_, ?_, ?_⟩
  all_goals rfl

/-- Settles O54: the default build is valid, and both engines meet their invariant at reset. -/
theorem powerOnStateMeetsTheInvariant : Obligations.PowerOnStateMeetsTheInvariant :=
  ⟨by decide, fecInv_reset _, rsmInv_reset _⟩

/-- Settles O6, by the outcome of each read. -/
theorem counterReadsReturnAndChangeNothing : Obligations.CounterReadsReturnAndChangeNothing := fun s =>
  ⟨exec_rdStat .recoveredCount s, exec_rdStat .unitsReassembled s, exec_rdStat .packetsDeduplicated s,
    exec_rsmGetUnits s, exec_rsmGetDedup s⟩

/-- Settles O14: neither a reserved code nor a reserved selector decodes, and the step names the byte. -/
theorem reservedCodesAndSelectorsAreRefused : Obligations.ReservedCodesAndSelectorsAreRefused := by
  constructor
  · intro s code ops rest hcode
    exact step_undecodable (e := .reservedCode code) rfl (by
      rw [decode, decodeCommand, opcode_ofCode_reserved hcode])
  · intro s sel ops rest hsel
    exact step_undecodable (e := .reservedSelector sel) rfl (by
      rw [show (0x03 : Byte) = Opcode.rdStat.code from rfl, decode_command_code, decodeOperands,
        selector_ofCode_reserved hsel])

/-- Settles O15, by the outcome of each over its bound. -/
theorem oversizeInputIsRefused : Obligations.OversizeInputIsRefused := fun s =>
  ⟨fun _ h => ⟨exec_rx_gt h, exec_parse_gt h⟩, fun _ _ hi h => (exec_of_packetOfClass hi s).trans (receive_gt h),
    fun _ h => exec_serialize_gt h⟩

/-- Settles O17, by the step on a frame that decodes. -/
theorem stepRunsTheDecodedInstruction : Obligations.StepRunsTheDecodedInstruction :=
  fun _ _ _ _ hin hdec => step_decoded hin hdec

/-- Settles O18, by the step on an empty port and on a frame that does not decode. -/
theorem stepWithoutAnInstruction : Obligations.StepWithoutAnInstruction :=
  ⟨fun _ hin => step_idle hin, fun _ _ _ _ hin hdec => ⟨_, step_undecodable hin hdec⟩⟩

/-- Settles O60: an information word is its fields side by side (`toNat_append_add`). -/
theorem eventWordsHoldTheirFields : Obligations.EventWordsHoldTheirFields := by
  refine ⟨fun len hlen => ⟨rfl, ?_⟩, fun seq type pos => ⟨rfl, ?_⟩, fun last seq => ⟨rfl, ?_⟩,
    fun hdr emb => ⟨rfl, ?_⟩, fun seq type => ⟨rfl, ?_⟩⟩
  · simp only [Event.info, toNat_append_add, BitVec.ofNat_eq_ofNat, BitVec.toNat_ofNat]; omega
  · cases pos with
    | middle =>
      simp only [Event.info, FragmentPos.bit, toNat_append_add, BitVec.ofNat_eq_ofNat, BitVec.toNat_ofNat]; omega
    | final =>
      simp only [Event.info, FragmentPos.bit, toNat_append_add, BitVec.ofNat_eq_ofNat, BitVec.toNat_ofNat]; omega
  · simp only [Event.info, toNat_append_add]; omega
  · simp only [Event.info, toNat_append_add, BitVec.ofNat_eq_ofNat, BitVec.toNat_ofNat]; omega
  · simp only [Event.info, toNat_append_add, BitVec.ofNat_eq_ofNat, BitVec.toNat_ofNat]; omega

end Sys2Proof.Machine
end

section
/-! PROOFS. The family of 41_fec.md, the table and the recovery: the table FEC.PROCESS leaves in every case (R121,
R122), the victim (R122), when and what step 3 recovers (R114 to R118), and the obligations about them. -/

namespace Sys2Proof.Machine

/-! ## Maps -/

section
variable {w : Nat} {α : Type}

/-- Lookup does not tell a stored entry from one put in front. -/
theorem mapGet_mapSet_eq_cons (m : Map w α) (k : BitVec w) (v : α) (j : BitVec w) :
    mapGet (mapSet m k v) j = mapGet ((k, v) :: m) j := by
  rw [mapGet_cons]
  split
  · next hj => rw [hj, mapGet_mapSet_same]
  · next hj => exact mapGet_mapSet_other m v hj

/-- Storing what is there already changes nothing, in canonical form. -/
theorem mapSet_present_self {m : Map w α} (hm : mapWf m) {k : BitVec w} {v : α} (h : mapGet m k = some v) :
    mapSet m k v = m := by
  refine map_ext (mapWf_mapSet hm k v) hm fun j => ?_
  by_cases hj : j = k
  · rw [hj, mapGet_mapSet_same, h]
  · exact mapGet_mapSet_other m v hj

/-- Storing an absent key adds its entry and no other. -/
theorem mapSet_absent_perm {m : Map w α} {k : BitVec w} (h : mapGet m k = none) (v : α) :
    (mapSet m k v).Perm ((k, v) :: m) := by
  induction m with
  | nil => exact .refl _
  | cons c m ih =>
    rw [mapGet_cons] at h
    split at h
    · cases h
    · next hk =>
      rw [mapSet, if_neg hk]
      split
      · exact .refl _
      · exact ((ih h).cons c).trans (.swap _ _ _)

end

/-! ## Steps 1 and 2: a group just created (41_fec.md R111, R113) -/

theorem birthAfter_eq_ite (f : FecState) (gid : GroupId) :
    birthAfter f gid = if mapGet f.grp gid = none then f.birthCtr + 1 else f.birthCtr := by
  cases h : mapGet f.grp gid with
  | none => rw [birthAfter_absent h, if_pos rfl]
  | some g => rw [birthAfter_present h, if_neg (Option.some_ne_none g)]

theorem groupAfterStore_birth_absent {c : Config} {f : FecState} {p : Packet} (h : mapGet f.grp p.groupId = none) :
    (groupAfterStore c f p).birth = f.birthCtr := by
  rw [groupAfterStore, storePacket_birth, lookupOrCreate_absent h]; rfl

theorem groupAfterStore_media_absent {c : Config} {f : FecState} {p : Packet} (hp : p.isFec = false)
    (h : mapGet f.grp p.groupId = none) :
    groupAfterStore c f p = ⟨[(p.sequenceNumber, p)], none, c.fecGroupSize, f.birthCtr⟩ := by
  rw [groupAfterStore, lookupOrCreate_absent h]
  exact storePacket_new hp rfl

/-- Storing the packet just stored changes nothing. -/
theorem storePacket_storePacket (p : Packet) (g : Group) : storePacket p (storePacket p g) = storePacket p g := by
  cases hp : p.isFec with
  | true => simp only [storePacket_fec hp]
  | false =>
    cases hk : mapGet g.media p.sequenceNumber with
    | some m => rw [storePacket_duplicate hp hk, storePacket_duplicate hp hk]
    | none =>
      rw [storePacket_new hp hk]
      exact storePacket_duplicate (m := p) hp (mapGet_mapSet_same _ _ _)

/-! ## Steps 4 and 5 (41_fec.md R121, R122) -/

section
variable {c : Config} {f : FecState} {p : Packet}

theorem grpAfterCompletion_complete
    (h : (groupAfterStore c f p).expectedCount.toNat ≤ (groupAfterStore c f p).media.length) :
    grpAfterCompletion c f p = mapDel (mapSet f.grp p.groupId (groupAfterStore c f p)) p.groupId := by
  rw [grpAfterCompletion, isComplete, decide_eq_true h]; rfl

theorem grpAfterCompletion_sublist :
    (grpAfterCompletion c f p).Sublist (mapSet f.grp p.groupId (groupAfterStore c f p)) := by
  rcases Nat.lt_or_ge (groupAfterStore c f p).media.length (groupAfterStore c f p).expectedCount.toNat with h | h
  · rw [grpAfterCompletion_incomplete h]
  · rw [grpAfterCompletion_complete h]; exact List.filter_sublist

theorem mapGet_grpAfterCompletion_other {k : GroupId} (hk : k ≠ p.groupId) :
    mapGet (grpAfterCompletion c f p) k = mapGet f.grp k := by
  rcases Nat.lt_or_ge (groupAfterStore c f p).media.length (groupAfterStore c f p).expectedCount.toNat with h | h
  · rw [grpAfterCompletion_incomplete h, mapGet_mapSet_other _ _ hk]
  · rw [grpAfterCompletion_complete h, mapGet_mapDel_other _ hk, mapGet_mapSet_other _ _ hk]

theorem fecStateAfter_grp_of_complete
    (h : (groupAfterStore c f p).expectedCount.toNat ≤ (groupAfterStore c f p).media.length) :
    mapGet (fecStateAfter c f p).grp p.groupId = none := by
  refine mapGet_evict_none ?_
  rw [grpAfterCompletion_complete h]
  exact mapGet_mapDel_same _ _

/-- FEC.PROCESS adds no group but its own, and changes no other. -/
theorem mem_fecStateAfter_grp {e : GroupId × Group} (h : e ∈ (fecStateAfter c f p).grp) :
    e = (p.groupId, groupAfterStore c f p) ∨ e ∈ f.grp :=
  mem_mapSet (((evict_sublist c _).trans grpAfterCompletion_sublist).subset h)

/-- A group that was created and is there afterwards is the one step 2 left. -/
theorem fecStateAfter_group_created (habs : mapGet f.grp p.groupId = none) {g : Group}
    (h : mapGet (fecStateAfter c f p).grp p.groupId = some g) : g = groupAfterStore c f p := by
  rcases mem_fecStateAfter_grp (mapGet_mem h) with e | hmem
  · exact congrArg Prod.snd e
  · exact absurd rfl (mapGet_eq_none_iff.mp habs _ hmem)

/-- So is a group that was tracked, in a canonical table. -/
theorem fecStateAfter_group_tracked (hw : mapWf f.grp) (h : mapGet (fecStateAfter c f p).grp p.groupId ≠ none) :
    mapGet (fecStateAfter c f p).grp p.groupId = some (groupAfterStore c f p) ∧
      (groupAfterStore c f p).media.length < (groupAfterStore c f p).expectedCount.toNat := by
  have hinc := Nat.not_le.mp (mt fecStateAfter_grp_of_complete h)
  obtain ⟨g, hg⟩ := Option.ne_none_iff_exists'.mp h
  have hstored : mapGet (mapSet f.grp p.groupId (groupAfterStore c f p)) p.groupId = some g :=
    mapGet_evict (c := c) (mapWf_mapSet hw _ _) (by rw [← grpAfterCompletion_incomplete hinc]; exact hg)
  exact ⟨hg.trans (hstored.symm.trans (mapGet_mapSet_same _ _ _)), hinc⟩

/-- The table meets the ceiling before step 5 unless a group is created in a full table and stays incomplete. -/
theorem length_grpAfterCompletion_le (hw : mapWf f.grp) (hlen : f.grp.length ≤ c.maxGroups)
    (h : mapGet f.grp p.groupId ≠ none ∨
      (groupAfterStore c f p).expectedCount.toNat ≤ (groupAfterStore c f p).media.length ∨
      f.grp.length < c.maxGroups) :
    (grpAfterCompletion c f p).length ≤ c.maxGroups := by
  rcases h with hpresent | hcomplete | hroom
  · exact grpAfterCompletion_sublist.length_le.trans
      (length_mapSet_le hw hlen (fun habs => absurd habs hpresent) _)
  · cases habs : mapGet f.grp p.groupId with
    | none => rw [grpAfterCompletion_complete hcomplete, mapDel_mapSet_absent habs]; exact hlen
    | some g =>
      exact grpAfterCompletion_sublist.length_le.trans (length_mapSet_le hw hlen (by simp [habs]) _)
  · exact grpAfterCompletion_sublist.length_le.trans (length_mapSet_le hw hlen (fun _ => hroom) _)

/-! ## The counters of FEC.PROCESS (41_fec.md R119) -/

theorem fecStateAfter_recoveredCount_of_some {q : Packet} (h : recoveredBy c f p = some q) :
    (fecStateAfter c f p).recoveredCount = satInc c f.recoveredCount := by
  rw [fecStateAfter, h]

theorem fecStateAfter_recoveredCount_eq_ite :
    (fecStateAfter c f p).recoveredCount =
      if (recoveredBy c f p).toList = [] then f.recoveredCount else satInc c f.recoveredCount := by
  cases h : recoveredBy c f p with
  | none => exact fecStateAfter_recoveredCount_of_none h
  | some q => exact fecStateAfter_recoveredCount_of_some h

end

/-! ## The victim (41_fec.md R122, 92_eei_decisions.md D9) -/

/-- The victim is a tracked group, least by id or by stamp. -/
theorem victim_spec {order : EvictOrder} {grp : Map 8 Group} {v : GroupId} (h : victim order grp = some v) :
    ∃ gv, (v, gv) ∈ grp ∧ (order = .numeric → ∀ e ∈ grp, v.toNat ≤ e.1.toNat) ∧
      (order = .creation → ∀ e ∈ grp, gv.birth ≤ e.2.birth) := by
  cases order with
  | numeric =>
    obtain ⟨e, he, rfl⟩ := Option.map_eq_some_iff.mp h
    exact ⟨e.2, argmin_mem he, fun _ => argmin_le he, nofun⟩
  | creation =>
    obtain ⟨e, he, rfl⟩ := Option.map_eq_some_iff.mp h
    exact ⟨e.2, argmin_mem he, nofun, fun _ => argmin_le he⟩

/-- A group created in a full table that stays incomplete: the victim among it and the others leaves, no other. -/
theorem fecStateAfter_grp_of_full {c : Config} {f : FecState} {p : Packet} (habs : mapGet f.grp p.groupId = none)
    (hfull : f.grp.length = c.maxGroups)
    (hinc : (groupAfterStore c f p).media.length < (groupAfterStore c f p).expectedCount.toNat) :
    ∃ v gv, (fecStateAfter c f p).grp = mapDel (mapSet f.grp p.groupId (groupAfterStore c f p)) v ∧
      (v, gv) ∈ (p.groupId, groupAfterStore c f p) :: f.grp ∧
      (c.evictOrder = .numeric → ∀ e ∈ (p.groupId, groupAfterStore c f p) :: f.grp, v.toNat ≤ e.1.toNat) ∧
      (c.evictOrder = .creation → ∀ e ∈ (p.groupId, groupAfterStore c f p) :: f.grp, gv.birth ≤ e.2.birth) := by
  have hperm := mapSet_absent_perm habs (groupAfterStore c f p)
  have hover : (mapSet f.grp p.groupId (groupAfterStore c f p)).length = c.maxGroups + 1 := by
    rw [length_mapSet_absent habs, hfull]
  have hsome : victim c.evictOrder (mapSet f.grp p.groupId (groupAfterStore c f p)) ≠ none := fun h => by
    rw [victim_eq_none_iff.mp h] at hover; cases hover
  obtain ⟨v, hv⟩ := Option.ne_none_iff_exists'.mp hsome
  obtain ⟨gv, hmem, hnumeric, hcreation⟩ := victim_spec hv
  refine ⟨v, gv, ?_, hperm.mem_iff.mp hmem, fun ho e he => hnumeric ho e (hperm.mem_iff.mpr he),
    fun ho e he => hcreation ho e (hperm.mem_iff.mpr he)⟩
  rw [fecStateAfter, grpAfterCompletion_incomplete hinc]
  exact evict_one_over hover hv

/-! ## Step 3: what is recovered (41_fec.md R116 to R118) -/

/-- Exactly one member is absent, said of the numbers of the range. -/
theorem missingMembers_eq_singleton_iff {f : Packet} {n : Nat} (hn : n ≤ 65536) {media : Map 16 Packet} {x : SeqNum} :
    missingMembers f n media = [x] ↔
      ∀ y, (∃ i, i < n ∧ y = f.sequenceNumber - BitVec.ofNat 16 n + BitVec.ofNat 16 i) ∧ mapGet media y = none ↔
        y = x := by
  have hnodup : (missingMembers f n media).Nodup := (nodup_seqRange hn).filter _
  rw [← List.perm_singleton, List.perm_ext_iff_of_nodup hnodup (List.nodup_singleton x)]
  simp only [mem_missingMembers, mem_seqRange, List.mem_singleton]

/-- A payload is the combined one when it has its length and its bytes. -/
theorem eq_combine_iff {payload parity : Bytes} {media : Map 16 Packet} :
    payload = combine parity media ↔ payload.length = parity.length ∧
      ∀ (i : Nat) (h : i < parity.length),
        payload[i]? = some (parity[i] ^^^ xorAt i (media.map (fun m => m.2.payload))) := by
  constructor
  · rintro rfl
    exact ⟨combine_length _ _, combine_getElem? _ _⟩
  · rintro ⟨hlen, hbyte⟩
    refine List.ext_getElem? fun i => ?_
    rcases Nat.lt_or_ge i parity.length with hi | hi
    · rw [hbyte i hi, combine_getElem? _ _ i hi]
    · rw [List.getElem?_eq_none (hlen ▸ hi), List.getElem?_eq_none (by rw [combine_length]; exact hi)]

theorem eq_recoveredPacket_iff {gid : GroupId} {x : SeqNum} {payload : Bytes} {q : Packet} :
    q = recoveredPacket gid x payload ↔ q.sequenceNumber = x ∧ q.isFec = false ∧ q.isStart = false ∧
      q.isEnd = false ∧ q.typeOrCount = 0 ∧ q.groupId = gid ∧ q.payload = payload := by
  obtain ⟨_, _, _, _, _, _, _⟩ := q
  simp only [recoveredPacket, Packet.mk.injEq]

/-! ## The obligations -/

/-- Settles O29, clause by clause: the counters, the groups FEC.PROCESS can leave (`mem_fecStateAfter_grp`,
`fecStateAfter_group_created`), and where nothing is evicted (`length_grpAfterCompletion_le`). -/
theorem fecProcessFrame : Obligations.FecProcessFrame := by
  intro s p
  refine ⟨_, _, exec_fecProcess p s, rfl, Option.length_toList_le, rfl, rfl, rfl, fecStateAfter_recoveredCount_eq_ite,
    birthAfter_eq_ite _ _, evict_length _ _, ?others, ?created, ?kept, ?tracked⟩
  case others =>
    intro e he hne
    rcases mem_fecStateAfter_grp he with rfl | hmem
    · exact absurd rfl hne
    · exact hmem
  case created =>
    intro habs g hg
    obtain rfl := fecStateAfter_group_created habs hg
    refine ⟨groupAfterStore_birth_absent habs, fun hmedia => ?_⟩
    rw [groupAfterStore_media_absent hmedia habs]
    exact ⟨rfl, rfl, rfl⟩
  case kept =>
    intro hw hlen hroom k hk
    rw [State.withOut_fec, State.withFec_fec, fecStateAfter, evict_of_le (length_grpAfterCompletion_le hw hlen hroom),
      mapGet_grpAfterCompletion_other hk]
  case tracked =>
    intro hw hmedia habs hroom hsize
    have hgroup := groupAfterStore_media_absent (c := s.cfg) hmedia habs
    rw [State.withOut_fec, State.withFec_fec,
      fecStateAfter_grp_of_room hw hroom.le (fun _ => hroom) (by rw [hgroup]; exact hsize), mapGet_mapSet_same, hgroup]

/-- Settles O31: the packet is stored if its number is absent (`storePacket_new`), the group stays as it is if not
(`storePacket_duplicate`), and steps 4 and 5 remove nothing (`fecStateAfter_grp_of_room`). -/
theorem firstMediaPacketOfANumberIsKept : Obligations.FirstMediaPacketOfANumberIsKept := by
  intro s p g hw hlen hmedia hg hshort hnew
  have hstore : groupAfterStore s.cfg s.fec p = storePacket p g := by
    rw [groupAfterStore, lookupOrCreate_present hg]
  have hkept (hinc : (storePacket p g).media.length < (storePacket p g).expectedCount.toNat) :
      mapGet (fecStateAfter s.cfg s.fec p).grp p.groupId = some (storePacket p g) := by
    rw [fecStateAfter_grp_of_room hw hlen (by simp [hg]) (by rw [hstore]; exact hinc), mapGet_mapSet_same, hstore]
  cases hk : mapGet g.media p.sequenceNumber with
  | some m =>
    rw [storePacket_duplicate hmedia hk] at hkept
    exact ⟨_, g, exec_fecProcess p s, hkept hshort, rfl, rfl, rfl, hk, fun _ _ => rfl⟩
  | none =>
    rw [storePacket_new hmedia hk] at hkept
    exact ⟨_, _, exec_fecProcess p s, hkept (by rw [length_mapSet_absent hk]; exact hnew hk), rfl, rfl, rfl,
      mapGet_mapSet_same _ _ _, fun k hne => mapGet_mapSet_other _ _ hne⟩

/-- Settles O33: step 3's condition and packet (`recover_eq_some_iff`), the one absent member said of the numbers of the
range, the combined payload said byte by byte (`eq_combine_iff`). -/
theorem recoveryOfTheOneMissingMember : Obligations.RecoveryOfTheOneMissingMember := by
  intro s p
  refine ⟨_, _, exec_fecProcess p s, rfl, fun q => ?_⟩
  have hn : (groupAfterStore s.cfg s.fec p).expectedCount.toNat ≤ 65536 :=
    (groupAfterStore s.cfg s.fec p).expectedCount.isLt.le.trans (by decide)
  rw [Option.toList_eq_singleton_iff, recoveredBy, recover_eq_some_iff]
  simp only [missingMembers_eq_singleton_iff hn, eq_recoveredPacket_iff, eq_combine_iff]

/-- Settles O34: the payload is determined byte by byte by an XOR that does not depend on the order (`combine_perm`). -/
theorem xorDoesNotDependOnTheOrder : Obligations.XorDoesNotDependOnTheOrder :=
  fun parity _ _ h => ⟨combine_perm parity (h.map _), combine_length _ _⟩

/-- Settles O35: the tracked group is the one step 2 left (`fecStateAfter_group_tracked`), storing the packet again
leaves it so (`storePacket_storePacket`), and step 3 sees the same group. -/
theorem recoveryRepeats : Obligations.RecoveryRepeats := by
  intro s t p q hinv hexec hrec htracked
  obtain rfl := Host.Outcome.next.inj hexec
  obtain ⟨_, ⟨hw, _, _, _, _⟩, _⟩ := hinv
  obtain ⟨hgroup, hinc⟩ := fecStateAfter_group_tracked hw htracked
  have hwf : mapWf (fecStateAfter s.cfg s.fec p).grp :=
    (mapWf_mapSet hw _ _).sublist ((evict_sublist _ _).trans grpAfterCompletion_sublist)
  have hagain : groupAfterStore s.cfg (fecStateAfter s.cfg s.fec p) p = groupAfterStore s.cfg s.fec p := by
    rw [groupAfterStore, lookupOrCreate_present hgroup, groupAfterStore, storePacket_storePacket]
  have hfirst : recoveredBy s.cfg s.fec p = some q :=
    Option.toList_eq_singleton_iff.mp (Result.recovered.inj hrec)
  have hsecond : recoveredBy s.cfg (fecStateAfter s.cfg s.fec p) p = some q := by
    rw [recoveredBy, hagain]; exact hfirst
  refine ⟨_, exec_fecProcess p _, ?result, ?table, ?count⟩
  case result => exact congrArg (fun o => Result.recovered o.toList) hsecond
  case table =>
    have hgrp := fecStateAfter_grp_of_room hwf (evict_length _ _) (by simp [hgroup]) (hagain ▸ hinc)
    rwa [hagain, mapSet_present_self hwf hgroup] at hgrp
  case count =>
    rw [← fecStateAfter_recoveredCount_of_some hfirst]
    exact fecStateAfter_recoveredCount_of_some hsecond

/-- Settles O36: step 4 removes the group, and step 5 brings none back. -/
theorem completeGroupIsRemoved : Obligations.CompleteGroupIsRemoved :=
  fun s p h => ⟨_, exec_fecProcess p s, fecStateAfter_grp_of_complete h⟩

/-- Settles O37, by the table a created group leaves when it was full (`fecStateAfter_grp_of_full`). -/
theorem evictionRemovesTheVictim : Obligations.EvictionRemovesTheVictim := by
  intro s p _ habs hfull hinc
  obtain ⟨v, gv, hgrp, hmem, hnumeric, hcreation⟩ := fecStateAfter_grp_of_full habs hfull hinc
  refine ⟨_, v, gv, exec_fecProcess p s, hmem, ?_, fun k hk => ?_, hnumeric, hcreation⟩
  · rw [State.withOut_fec, State.withFec_fec, hgrp, mapGet_mapDel_same]
  · rw [State.withOut_fec, State.withFec_fec, hgrp, mapGet_mapDel_other _ hk, mapGet_mapSet_eq_cons]

/-- Settles O38: a complete new group goes at once; of an incomplete one the victim has the lowest id, and that is the
new group's own. -/
theorem numericEvictionStarvesALowNewGroup : Obligations.NumericEvictionStarvesALowNewGroup := by
  intro s p _ horder hfull hlow
  have habs : mapGet s.fec.grp p.groupId = none :=
    mapGet_eq_none_iff.mpr fun e he heq => Nat.ne_of_gt (hlow e he) (congrArg BitVec.toNat heq)
  refine ⟨_, exec_fecProcess p s, ?_⟩
  rw [State.withOut_fec, State.withFec_fec]
  rcases Nat.lt_or_ge (groupAfterStore s.cfg s.fec p).media.length
    (groupAfterStore s.cfg s.fec p).expectedCount.toNat with hinc | hcomplete
  · obtain ⟨v, gv, hgrp, hmem, hnumeric, _⟩ := fecStateAfter_grp_of_full habs hfull hinc
    have hle : v.toNat ≤ p.groupId.toNat := hnumeric horder _ List.mem_cons_self
    rcases List.mem_cons.mp hmem with hself | hother
    · obtain ⟨rfl, rfl⟩ := Prod.mk.inj hself
      rw [hgrp, mapDel_mapSet_absent habs]
    · exact absurd hle (Nat.not_le.mpr (hlow _ hother))
  · have hgrp := grpAfterCompletion_complete hcomplete
    rw [mapDel_mapSet_absent habs] at hgrp
    rw [fecStateAfter, hgrp]
    exact evict_of_le hfull.le

end Sys2Proof.Machine
end

section
/-! PROOFS. Sequence numbers moved by a constant (41_fec.md R130): every part of FEC.PROCESS keeps `ShiftedGroup` and
`ShiftedFec`, and the obligation that follows. -/

namespace Sys2Proof.Machine

/-! ## Maps in canonical form -/

section
variable {w : Nat} {α : Type}

theorem mapWf_nodup {m : Map w α} (h : mapWf m) : m.Nodup :=
  h.imp fun hab => by rintro rfl; exact Nat.lt_irrefl _ hab

theorem mapGet_eq_some_iff {m : Map w α} (h : mapWf m) {k : BitVec w} {v : α} : mapGet m k = some v ↔ (k, v) ∈ m :=
  ⟨mapGet_mem, mapGet_of_mem h⟩

theorem argmin_map {β : Type} (f : β → Nat) (h : α → β) (l : List α) :
    argmin f (l.map h) = (argmin (fun a => f (h a)) l).map h := by
  induction l with
  | nil => rfl
  | cons a l ih =>
    rw [List.map_cons, argmin, argmin, ih]
    cases argmin (fun a => f (h a)) l with
    | none => rfl
    | some b => simp only [Option.map_some]; split <;> rfl

end

/-! ## Packets and numbers -/

theorem shiftPacket_injective (d : SeqNum) : Function.Injective (shiftPacket d) := by
  rintro ⟨_, _, _, _, _, _, _⟩ ⟨_, _, _, _, _, _, _⟩ h
  simpa [shiftPacket] using h

theorem seqRange_add (f d : SeqNum) (n : Nat) : seqRange (f + d) n = (seqRange f n).map (· + d) := by
  simp only [seqRange, List.map_map]
  refine List.map_congr_left fun i _ => ?_
  show f + d - _ + _ = f - _ + _ + d
  ring

/-- An entry of a media map moved with its packet. -/
def shiftEntry (d : SeqNum) (e : SeqNum × Packet) : SeqNum × Packet := (e.1 + d, shiftPacket d e.2)

theorem shiftEntry_injective (d : SeqNum) : Function.Injective (shiftEntry d) := by
  rintro ⟨k, m⟩ ⟨k', m'⟩ h
  obtain ⟨hk, hm⟩ := Prod.mk.inj h
  exact Prod.ext (add_right_cancel hk) (shiftPacket_injective d hm)

/-! ## Groups -/

section
variable {d : SeqNum} {g g' : Group} (h : ShiftedGroup d g g')
include h

/-- The moved media map holds the moved entries; where the numbers wrap, in another order. -/
theorem media_perm_shifted : g'.media.Perm (g.media.map (shiftEntry d)) := by
  obtain ⟨hw, hw'⟩ := h.wf
  rw [List.perm_ext_iff_of_nodup (mapWf_nodup hw') ((mapWf_nodup hw).map (shiftEntry_injective d))]
  rintro ⟨k, v⟩
  have hget := h.media (k - d)
  rw [sub_add_cancel] at hget
  rw [← mapGet_eq_some_iff hw', hget, Option.map_eq_some_iff, List.mem_map]
  constructor
  · rintro ⟨m, hm, rfl⟩
    exact ⟨(k - d, m), mapGet_mem hm, Prod.ext (sub_add_cancel k d) rfl⟩
  · rintro ⟨⟨k', m⟩, hm, heq⟩
    obtain ⟨rfl, rfl⟩ := Prod.mk.inj heq
    rw [add_sub_cancel_right]
    exact ⟨m, mapGet_of_mem hw hm, rfl⟩

theorem media_length_shifted : g'.media.length = g.media.length := by
  rw [(media_perm_shifted h).length_eq, List.length_map]

theorem isComplete_shifted : isComplete g' = isComplete g := by
  rw [isComplete, isComplete, media_length_shifted h, h.expected]

theorem combine_shifted (parity : Bytes) : combine parity g'.media = combine parity g.media := by
  refine combine_perm parity (((media_perm_shifted h).map _).trans ?_)
  rw [List.map_map]
  exact .refl _

theorem missingMembers_shifted (f : Packet) (n : Nat) :
    missingMembers (shiftPacket d f) n g'.media = (missingMembers f n g.media).map (· + d) := by
  rw [missingMembers, missingMembers, show (shiftPacket d f).sequenceNumber = f.sequenceNumber + d from rfl,
    seqRange_add, List.filter_map]
  congr 2
  funext s
  simp only [Function.comp, mapHas, h.media s, Option.isSome_map]

/-- Step 2 on the moved packet. -/
theorem storePacket_shifted (p : Packet) : ShiftedGroup d (storePacket p g) (storePacket (shiftPacket d p) g') := by
  cases hp : p.isFec with
  | true =>
    rw [storePacket_fec hp, storePacket_fec (p := shiftPacket d p) hp]
    exact ⟨h.wf, h.media, rfl, rfl, h.birth⟩
  | false =>
    have hget := h.media p.sequenceNumber
    cases hk : mapGet g.media p.sequenceNumber with
    | some m =>
      rw [hk] at hget
      rw [storePacket_duplicate hp hk, storePacket_duplicate (p := shiftPacket d p) hp hget]
      exact h
    | none =>
      rw [hk] at hget
      rw [storePacket_new hp hk, storePacket_new (p := shiftPacket d p) hp hget]
      refine ⟨⟨mapWf_mapSet h.wf.1 _ _, mapWf_mapSet h.wf.2 _ _⟩, fun k => ?_, h.fec, h.expected, h.birth⟩
      simp only [mapGet_mapSet_eq_cons, mapGet_cons, shiftPacket, add_left_inj]
      split
      · rfl
      · exact h.media k

/-- Step 3 recovers the moved packet. -/
theorem recover_shifted (gid : GroupId) : recover gid g' = (recover gid g).map (shiftPacket d) := by
  rw [recover, recover, h.fec]
  cases g.fec with
  | none => rfl
  | some f =>
    simp only [Option.map_some, media_length_shifted h, h.expected, missingMembers_shifted h]
    split
    · match missingMembers f g.expectedCount.toNat g.media with
      | [] => rfl
      | [s] => exact congrArg (fun payload => some (recoveredPacket gid (s + d) payload)) (combine_shifted h f.payload)
      | _ :: _ :: _ => rfl
    · rfl

end

theorem freshGroup_shifted (d : SeqNum) (c : Config) (birth : Nat) :
    ShiftedGroup d (freshGroup c birth) (freshGroup c birth) :=
  ⟨⟨.nil, .nil⟩, fun _ => rfl, rfl, rfl, rfl⟩

/-! ## Tables -/

/-- Two tables with the same ids, group by group moved by `d`. -/
abbrev ShiftedTable (d : SeqNum) (grp grp' : Map 8 Group) : Prop :=
  List.Forall₂ (fun e e' => e'.1 = e.1 ∧ ShiftedGroup d e.2 e'.2) grp grp'

section
variable {d : SeqNum} {grp grp' : Map 8 Group} (h : ShiftedTable d grp grp')
include h

theorem mapGet_shifted (k : GroupId) :
    (mapGet grp k = none ∧ mapGet grp' k = none) ∨
      ∃ g g', mapGet grp k = some g ∧ mapGet grp' k = some g' ∧ ShiftedGroup d g g' := by
  induction h with
  | nil => exact .inl ⟨rfl, rfl⟩
  | @cons e e' _ _ he _ ih =>
    obtain ⟨hkey, hgroup⟩ := he
    rw [mapGet_cons, mapGet_cons, hkey]
    split
    · exact .inr ⟨_, _, rfl, rfl, hgroup⟩
    · exact ih

theorem mapSet_shifted (k : GroupId) {g g' : Group} (hg : ShiftedGroup d g g') :
    ShiftedTable d (mapSet grp k g) (mapSet grp' k g') := by
  induction h with
  | nil => exact .cons ⟨rfl, hg⟩ .nil
  | @cons e e' _ _ he hrest ih =>
    obtain ⟨hkey, hgroup⟩ := he
    rw [mapSet, mapSet, hkey]
    split
    · exact .cons ⟨rfl, hg⟩ hrest
    · split
      · exact .cons ⟨rfl, hg⟩ (.cons ⟨rfl, hgroup⟩ hrest)
      · exact .cons ⟨rfl, hgroup⟩ ih

theorem mapDel_shifted (k : GroupId) : ShiftedTable d (mapDel grp k) (mapDel grp' k) := by
  induction h with
  | nil => exact .nil
  | @cons e e' _ _ he _ ih =>
    rw [mapDel, mapDel, List.filter_cons, List.filter_cons, he.1]
    split
    · exact .cons he ih
    · exact ih

/-- The ids and the stamps are the same. -/
theorem stamps_shifted :
    grp'.map (fun e => (e.1, e.2.birth)) = grp.map (fun e => (e.1, e.2.birth)) := by
  induction h with
  | nil => rfl
  | cons he _ ih => rw [List.map_cons, List.map_cons, ih, he.1, he.2.birth]

end

/-- The victim is a matter of the ids and the stamps. -/
theorem victim_eq_stamps (order : EvictOrder) (grp : Map 8 Group) :
    victim order grp =
      (argmin (match order with
        | .numeric => fun c => c.1.toNat
        | .creation => fun c => c.2) (grp.map (fun e => (e.1, e.2.birth)))).map Prod.fst := by
  cases order with
  | numeric => rw [argmin_map, Option.map_map]; rfl
  | creation => rw [argmin_map, Option.map_map]; rfl

section
variable {d : SeqNum} {grp grp' : Map 8 Group}

theorem evictLoop_shifted (c : Config) (k : Nat) (h : ShiftedTable d grp grp') :
    ShiftedTable d (evictLoop c k grp) (evictLoop c k grp') := by
  induction k generalizing grp grp' with
  | zero => exact h
  | succ k ih =>
    have hvictim : victim c.evictOrder grp' = victim c.evictOrder grp := by
      rw [victim_eq_stamps, victim_eq_stamps, stamps_shifted h]
    rw [evictLoop, evictLoop, ← h.length_eq, hvictim]
    split
    · split
      · exact ih (mapDel_shifted h _)
      · exact h
    · exact h

theorem evict_shifted (c : Config) (h : ShiftedTable d grp grp') :
    ShiftedTable d (evict c grp) (evict c grp') := by
  rw [evict, evict, ← h.length_eq]
  exact evictLoop_shifted c _ h

end

/-! ## FEC.PROCESS -/

section
variable {d : SeqNum} {f f' : FecState} (h : ShiftedFec d f f') (c : Config) (p : Packet)
include h

theorem groupAfterStore_shifted :
    ShiftedGroup d (groupAfterStore c f p) (groupAfterStore c f' (shiftPacket d p)) := by
  refine storePacket_shifted ?_ p
  rcases mapGet_shifted h.groups p.groupId with ⟨habs, habs'⟩ | ⟨g, g', hg, hg', hgroup⟩
  · rw [lookupOrCreate_absent habs, lookupOrCreate_absent (gid := (shiftPacket d p).groupId) habs', h.births]
    exact freshGroup_shifted d c _
  · rw [lookupOrCreate_present hg, lookupOrCreate_present (gid := (shiftPacket d p).groupId) hg']
    exact hgroup

theorem recoveredBy_shifted :
    recoveredBy c f' (shiftPacket d p) = (recoveredBy c f p).map (shiftPacket d) :=
  recover_shifted (groupAfterStore_shifted h c p) p.groupId

theorem grpAfterCompletion_shifted :
    ShiftedTable d (grpAfterCompletion c f p) (grpAfterCompletion c f' (shiftPacket d p)) := by
  have hgroup := groupAfterStore_shifted h c p
  have hstored := mapSet_shifted h.groups p.groupId hgroup
  simp only [grpAfterCompletion, isComplete_shifted hgroup]
  split
  · exact mapDel_shifted hstored _
  · exact hstored

theorem birthAfter_shifted (gid : GroupId) : birthAfter f' gid = birthAfter f gid := by
  rcases mapGet_shifted h.groups gid with ⟨habs, habs'⟩ | ⟨g, g', hg, hg', _⟩
  · rw [birthAfter_absent habs, birthAfter_absent habs', h.births]
  · rw [birthAfter_present hg, birthAfter_present hg', h.births]

/-- FEC.PROCESS keeps the relation. -/
theorem fecStateAfter_shifted :
    ShiftedFec d (fecStateAfter c f p) (fecStateAfter c f' (shiftPacket d p)) where
  groups := evict_shifted c (grpAfterCompletion_shifted h c p)
  recovered := by
    simp only [fecStateAfter_recoveredCount_eq_ite, recoveredBy_shifted h, h.recovered, Option.toList_eq_nil_iff,
      Option.map_eq_none_iff]
  births := birthAfter_shifted h p.groupId

end

/-! ## The obligation -/

/-- Settles O40: what step 3 recovers is moved (`recoveredBy_shifted`) and the states left are again moved
(`fecStateAfter_shifted`). -/
theorem movingSequenceNumbersMovesTheRecovery : Obligations.MovingSequenceNumbersMovesTheRecovery := by
  intro d s s' p hcfg h
  refine ⟨_, _, _, exec_fecProcess p s, exec_fecProcess _ s', rfl, ?_, ?_⟩
  · rw [State.withOut_out, hcfg, recoveredBy_shifted h, Option.toList_map]
  · rw [State.withOut_fec, State.withOut_fec, State.withFec_fec, State.withFec_fec, hcfg]
    exact fecStateAfter_shifted h s.cfg p

end Sys2Proof.Machine
end

section
/-! PROOFS. The lost member (41_fec.md R130, R131): the group as the packets that arrived left it, a run of FEC.PROCESS
that recovers nothing, its last packet, and the obligation that follows. -/

namespace Sys2Proof.Machine

/-! ## Runs (20_memory.md R50) -/

theorem runCommands_cons {i : Instr} {is : List Instr} {s t u : State} {outs : List Output} (h : exec i s = .next t)
    (hrest : runCommands is t = some (u, outs)) : runCommands (i :: is) s = some (u, t.out :: outs) := by
  simp only [runCommands, h, hrest]

theorem runCommands_snoc {is : List Instr} {i : Instr} {s t u : State} {outs : List Output}
    (h : runCommands is s = some (t, outs)) (hlast : exec i t = .next u) :
    runCommands (is ++ [i]) s = some (u, outs ++ [u.out]) := by
  induction is generalizing s outs with
  | nil =>
    obtain ⟨rfl, rfl⟩ := Prod.mk.inj (Option.some.inj h)
    exact runCommands_cons hlast rfl
  | cons j is ih =>
    simp only [runCommands] at h
    split at h
    · next s' hexec =>
      split at h
      · next t' outs' hrest =>
        obtain ⟨rfl, rfl⟩ := Prod.mk.inj (Option.some.inj h)
        exact runCommands_cons hexec (ih hrest)
      · cases h
    · cases h
    · cases h

theorem recoveredOf_append (outs outs' : List Output) :
    recoveredOf (outs ++ outs') = recoveredOf outs ++ recoveredOf outs' := List.flatMap_append

/-! ## The group as its packets left it (41_fec.md R112, R113) -/

def mediaOf (ps : List Packet) : List Packet := ps.filter (fun p => !p.isFec)

def fecOf (ps : List Packet) : List Packet := ps.filter (fun p => p.isFec)

theorem length_mediaOf_add (ps : List Packet) : (mediaOf ps).length + (fecOf ps).length = ps.length := by
  rw [Nat.add_comm, mediaOf, fecOf, ← List.length_eq_length_filter_add]

theorem mediaOf_snoc_fec {p : Packet} (h : p.isFec = true) (ps : List Packet) : mediaOf (ps ++ [p]) = mediaOf ps := by
  simp [mediaOf, h]

theorem mediaOf_snoc_media {p : Packet} (h : p.isFec = false) (ps : List Packet) :
    mediaOf (ps ++ [p]) = mediaOf ps ++ [p] := by
  simp [mediaOf, h]

theorem fecOf_snoc_fec {p : Packet} (h : p.isFec = true) (ps : List Packet) : fecOf (ps ++ [p]) = fecOf ps ++ [p] := by
  simp [fecOf, h]

theorem fecOf_snoc_media {p : Packet} (h : p.isFec = false) (ps : List Packet) : fecOf (ps ++ [p]) = fecOf ps := by
  simp [fecOf, h]

/-- Packets for one group of `n`: one groupId, redundancy packets of the count `n`, media packets of distinct
numbers. -/
structure Arrivals (gid : GroupId) (n : UnitType) (ps : List Packet) : Prop where
  group : ∀ p ∈ ps, p.groupId = gid
  count : ∀ p ∈ ps, p.isFec = true → p.typeOrCount = n
  distinct : ((mediaOf ps).map (fun p => p.sequenceNumber)).Nodup

theorem Arrivals.sublist {gid : GroupId} {n : UnitType} {ps qs : List Packet} (h : Arrivals gid n qs)
    (hsub : ps.Sublist qs) : Arrivals gid n ps :=
  ⟨fun p hp => h.group p (hsub.subset hp), fun p hp => h.count p (hsub.subset hp),
    h.distinct.sublist ((hsub.filter _).map _)⟩

/-- The group holds the media packets that arrived, each under its number, and the last redundancy packet; it expects
`n`. -/
structure HoldsArrivals (n : UnitType) (ps : List Packet) (g : Group) : Prop where
  media : g.media.Perm ((mediaOf ps).map (fun p => (p.sequenceNumber, p)))
  fec : g.fec = (fecOf ps).getLast?
  expected : g.expectedCount = n

theorem HoldsArrivals.media_length {n : UnitType} {ps : List Packet} {g : Group} (h : HoldsArrivals n ps g) :
    g.media.length = (mediaOf ps).length := by
  rw [h.media.length_eq, List.length_map]

theorem HoldsArrivals.mapGet_eq_none_iff {n : UnitType} {ps : List Packet} {g : Group} (h : HoldsArrivals n ps g)
    {k : SeqNum} : mapGet g.media k = none ↔ ∀ m ∈ mediaOf ps, m.sequenceNumber ≠ k := by
  simp [Machine.mapGet_eq_none_iff, h.media.mem_iff]

theorem freshGroup_holdsArrivals (c : Config) (birth : Nat) :
    HoldsArrivals c.fecGroupSize [] (freshGroup c birth) := ⟨.nil, rfl, rfl⟩

/-- Step 2 on the next arrival. -/
theorem HoldsArrivals.store {gid : GroupId} {n : UnitType} {ps : List Packet} {g : Group} {p : Packet}
    (h : HoldsArrivals n ps g) (harr : Arrivals gid n (ps ++ [p])) :
    HoldsArrivals n (ps ++ [p]) (storePacket p g) := by
  cases hp : p.isFec with
  | true =>
    rw [storePacket_fec hp]
    refine ⟨by rw [mediaOf_snoc_fec hp]; exact h.media, ?_, harr.count p (by simp) hp⟩
    rw [fecOf_snoc_fec hp, List.getLast?_concat]
  | false =>
    have hdistinct := harr.distinct
    rw [mediaOf_snoc_media hp, List.map_append, List.nodup_append] at hdistinct
    obtain ⟨_, _, hne⟩ := hdistinct
    have habs : mapGet g.media p.sequenceNumber = none :=
      h.mapGet_eq_none_iff.mpr fun m hm => hne _ (List.mem_map_of_mem hm) _ (by simp)
    rw [storePacket_new hp habs]
    refine ⟨?_, by rw [fecOf_snoc_media hp]; exact h.fec, h.expected⟩
    rw [mediaOf_snoc_media hp, List.map_append]
    exact (mapSet_absent_perm habs p).trans ((h.media.cons _).trans (List.perm_append_singleton _ _).symm)

/-! ## A run that recovers nothing -/

/-- FECEngine after the packets `ps` of group `gid`: the group holds them, or would be created where there is room. -/
structure FecHolds (c : Config) (gid : GroupId) (ps : List Packet) (f : FecState) : Prop where
  wf : mapWf f.grp
  bound : f.grp.length ≤ c.maxGroups
  room : mapGet f.grp gid = none → f.grp.length < c.maxGroups
  holds : HoldsArrivals c.fecGroupSize ps (lookupOrCreate c f gid)

section
variable {c : Config} {gid : GroupId} {ps : List Packet} {f : FecState} {p : Packet}

theorem FecHolds.groupAfterStore (h : FecHolds c gid ps f) (harr : Arrivals gid c.fecGroupSize (ps ++ [p])) :
    HoldsArrivals c.fecGroupSize (ps ++ [p]) (groupAfterStore c f p) := by
  have hstored := h.holds.store harr
  rwa [← harr.group p (by simp)] at hstored

/-- FEC.PROCESS on the next arrival, short of the group's size. -/
theorem FecHolds.process (h : FecHolds c gid ps f) (harr : Arrivals gid c.fecGroupSize (ps ++ [p]))
    (hshort : (mediaOf (ps ++ [p])).length < c.fecGroupSize.toNat) :
    FecHolds c gid (ps ++ [p]) (fecStateAfter c f p) := by
  have hstored := h.groupAfterStore harr
  obtain rfl := harr.group p (by simp)
  have hgrp : (fecStateAfter c f p).grp = mapSet f.grp p.groupId (Machine.groupAfterStore c f p) :=
    fecStateAfter_grp_of_room h.wf h.bound h.room (by rw [hstored.media_length, hstored.expected]; exact hshort)
  have hget : mapGet (fecStateAfter c f p).grp p.groupId = some (Machine.groupAfterStore c f p) := by
    rw [hgrp, mapGet_mapSet_same]
  exact ⟨hgrp ▸ mapWf_mapSet h.wf _ _, hgrp ▸ length_mapSet_le h.wf h.bound h.room _, by simp [hget],
    by rw [lookupOrCreate_present hget]; exact hstored⟩

/-- Before as many packets arrived as the group has members, the group is two short or has no redundancy packet. -/
theorem FecHolds.recoveredBy_eq_none (h : FecHolds c gid ps f) (harr : Arrivals gid c.fecGroupSize (ps ++ [p]))
    (hfew : (ps ++ [p]).length < c.fecGroupSize.toNat) : recoveredBy c f p = none := by
  have hstored := h.groupAfterStore harr
  refine Machine.recoveredBy_eq_none ?_
  rw [hstored.fec, hstored.media_length, hstored.expected]
  have hlen := length_mediaOf_add (ps ++ [p])
  cases hfec : fecOf (ps ++ [p]) with
  | nil => exact .inl rfl
  | cons q qs =>
    rw [hfec, List.length_cons] at hlen
    exact .inr (by omega)

end

/-- A run short of the group's size recovers nothing. -/
theorem runCommands_fecProcess_quiet (gid : GroupId) (rest : List Packet) :
    ∀ (s : State) (ps : List Packet), FecHolds s.cfg gid ps s.fec → Arrivals gid s.cfg.fecGroupSize (ps ++ rest) →
      (ps ++ rest).length < s.cfg.fecGroupSize.toNat →
      ∃ t outs, runCommands (rest.map Instr.fecProcess) s = some (t, outs) ∧ recoveredOf outs = [] ∧
        FecHolds t.cfg gid (ps ++ rest) t.fec ∧ t.cfg = s.cfg ∧ t.fec.recoveredCount = s.fec.recoveredCount := by
  induction rest with
  | nil =>
    intro s ps h _ _
    exact ⟨s, [], rfl, rfl, by rwa [List.append_nil], rfl, rfl⟩
  | cons p rest ih =>
    intro s ps h harr hfew
    rw [List.append_cons] at harr hfew ⊢
    have hsub : (ps ++ [p]).Sublist (ps ++ [p] ++ rest) := List.sublist_append_left _ _
    have hfew' : (ps ++ [p]).length < s.cfg.fecGroupSize.toNat := Nat.lt_of_le_of_lt hsub.length_le hfew
    have hshort : (mediaOf (ps ++ [p])).length < s.cfg.fecGroupSize.toNat :=
      Nat.lt_of_le_of_lt (List.length_filter_le _ _) hfew'
    have hnone := h.recoveredBy_eq_none (harr.sublist hsub) hfew'
    have hnext := h.process (harr.sublist hsub) hshort
    obtain ⟨t, outs, hrun, hquiet, hholds, hcfg, hcount⟩ := ih
      ((s.withFec (fecStateAfter s.cfg s.fec p)).withOut ⟨[], [], .recovered (recoveredBy s.cfg s.fec p).toList⟩)
      (ps ++ [p]) hnext harr hfew
    refine ⟨t, _, runCommands_cons (exec_fecProcess p s) hrun, ?_, hholds, hcfg,
      hcount.trans (fecStateAfter_recoveredCount_of_none hnone)⟩
    rw [State.withOut_out, hnone]
    exact hquiet

/-- What step 3 makes of the lost member `m`: its number, its payload with zeros up to the length of the redundancy
payload (41_fec.md R118, R129). -/
def lostPacket (gid : GroupId) (m : Packet) (len : Nat) : Packet :=
  recoveredPacket gid m.sequenceNumber (m.payload ++ List.replicate (len - m.payload.length) 0)

theorem recoveredBy_eq_recover {p : Packet} {gid : GroupId} (h : p.groupId = gid) (c : Config) (f : FecState) :
    recoveredBy c f p = recover gid (groupAfterStore c f p) := by
  rw [recoveredBy, h]

/-! ## The sender's group (41_fec.md R131) -/

section
variable {gid : GroupId} {first : SeqNum} {members : List Packet} {parity : Packet}
  (h : SenderGroup gid first members parity)
include h

/-- The members' numbers are distinct, since a group has at most 31. -/
theorem senderGroup_seq_inj {i j : Nat} (hi : i < members.length) (hj : j < members.length)
    (heq : members[i].sequenceNumber = members[j].sequenceNumber) : i = j := by
  have hsize := h.size.2
  rw [(h.member i hi).1, (h.member j hj).1] at heq
  have hnum := congrArg BitVec.toNat (add_left_cancel heq)
  simp only [BitVec.toNat_ofNat] at hnum
  omega

theorem senderGroup_media {m : Packet} (hm : m ∈ members) : m.isFec = false ∧ m.groupId = gid := by
  obtain ⟨i, hi, rfl⟩ := List.getElem_of_mem hm
  exact (h.member i hi).2

theorem senderGroup_nodup : (members.map (fun m => m.sequenceNumber)).Nodup := by
  rw [List.nodup_iff_injective_getElem]
  rintro ⟨i, hi⟩ ⟨j, hj⟩ heq
  rw [List.length_map] at hi hj
  simp only [List.getElem_map] at heq
  exact Fin.ext (senderGroup_seq_inj h hi hj heq)

variable {j : Nat}

theorem mediaOf_received : mediaOf (parity :: members.eraseIdx j) = members.eraseIdx j := by
  rw [mediaOf, List.filter_cons, if_neg (by simp [h.parityHead.1])]
  exact List.filter_eq_self.mpr fun m hm => by simp [(senderGroup_media h (List.mem_of_mem_eraseIdx hm)).1]

theorem fecOf_received : fecOf (parity :: members.eraseIdx j) = [parity] := by
  rw [fecOf, List.filter_cons, if_pos h.parityHead.1, List.cons.injEq]
  refine ⟨rfl, List.filter_eq_nil_iff.mpr fun m hm => ?_⟩
  simp [(senderGroup_media h (List.mem_of_mem_eraseIdx hm)).1]

theorem arrivals_received {n : UnitType} (hn : members.length = n.toNat) {order : List Packet}
    (hperm : order.Perm (parity :: members.eraseIdx j)) : Arrivals gid n order := by
  obtain ⟨_, hgid, _, hcount⟩ := h.parityHead
  refine ⟨fun p hp => ?_, fun p hp hfec => ?_, ?_⟩
  · rcases List.mem_cons.mp (hperm.mem_iff.mp hp) with rfl | hm
    · exact hgid
    · exact (senderGroup_media h (List.mem_of_mem_eraseIdx hm)).2
  · rcases List.mem_cons.mp (hperm.mem_iff.mp hp) with rfl | hm
    · exact BitVec.eq_of_toNat_eq (hcount.trans hn)
    · rw [(senderGroup_media h (List.mem_of_mem_eraseIdx hm)).1] at hfec; cases hfec
  · have hmedia : (mediaOf order).Perm (members.eraseIdx j) := mediaOf_received (j := j) h ▸ hperm.filter _
    exact (hmedia.map _).nodup_iff.mpr ((senderGroup_nodup h).sublist ((List.eraseIdx_sublist _ _).map _))

variable (hj : j < members.length)
include hj

/-- The range before the redundancy packet lists the members' numbers; the one not received is the lost member's. -/
theorem missingMembers_received {media : Map 16 Packet}
    (hmedia : ∀ k, mapGet media k = none ↔ ∀ m ∈ members.eraseIdx j, m.sequenceNumber ≠ k) :
    missingMembers parity members.length media = [members[j].sequenceNumber] := by
  obtain ⟨_, _, hseq, _⟩ := h.parityHead
  have hsize := h.size.2
  rw [missingMembers_eq_singleton_iff (by omega)]
  have hrange (i : Nat) (hi : i < members.length) :
      parity.sequenceNumber - BitVec.ofNat 16 members.length + BitVec.ofNat 16 i = members[i].sequenceNumber := by
    rw [hseq, add_sub_cancel_right, (h.member i hi).1]
  intro y
  constructor
  · rintro ⟨⟨i, hi, rfl⟩, habs⟩
    rw [hrange i hi] at habs ⊢
    by_contra hne
    have hij : i ≠ j := by rintro rfl; exact hne rfl
    exact (hmedia _).mp habs members[i] (List.mem_eraseIdx_iff_getElem.mpr ⟨i, hi, hij, rfl⟩) rfl
  · rintro rfl
    refine ⟨⟨j, hj, (hrange j hj).symm⟩, (hmedia _).mpr fun m hm heq => ?_⟩
    obtain ⟨i, hi, hij, rfl⟩ := List.mem_eraseIdx_iff_getElem.mp hm
    exact hij (senderGroup_seq_inj h hi hj heq)

/-- XOR is its own inverse: the redundancy payload and the payloads received give the lost one, padded with zeros. -/
theorem combine_received {media : Map 16 Packet}
    (hmedia : (media.map (fun e => e.2.payload)).Perm ((members.eraseIdx j).map (fun m => m.payload))) :
    combine parity.payload media =
      members[j].payload ++ List.replicate (parity.payload.length - members[j].payload.length) 0 := by
  have hcover := h.covers _ (List.getElem_mem hj)
  symm
  refine eq_combine_iff.mpr ⟨by rw [List.length_append, List.length_replicate]; omega, fun i hi => ?_⟩
  have hall : xorAt i (members.map (fun m => m.payload)) =
      (members[j].payload[i]?).getD 0#8 ^^^ xorAt i ((members.eraseIdx j).map (fun m => m.payload)) :=
    xorAt_perm ((List.getElem_cons_eraseIdx_perm hj).map _).symm
  rw [h.parityByte i hi, hall, xorAt_perm hmedia, BitVec.xor_assoc, BitVec.xor_self, BitVec.xor_zero]
  rcases Nat.lt_or_ge i members[j].payload.length with hlt | hge
  · rw [List.getElem?_append_left hlt, List.getElem?_eq_getElem hlt]; rfl
  · rw [List.getElem?_append_right hge, List.getElem?_eq_none hge, List.getElem?_replicate, if_pos (by omega)]; rfl

/-- Step 3 on the group that holds all but the lost member. -/
theorem recover_received {g : Group} {n : UnitType} (hn : members.length = n.toNat) {order : List Packet}
    (hperm : order.Perm (parity :: members.eraseIdx j)) (hg : HoldsArrivals n order g) :
    recover gid g = some (lostPacket gid members[j] parity.payload.length) := by
  have hmedia : (mediaOf order).Perm (members.eraseIdx j) := mediaOf_received (j := j) h ▸ hperm.filter _
  have hfec : fecOf order = [parity] := List.perm_singleton.mp (fecOf_received (j := j) h ▸ hperm.filter _)
  refine recover_eq_some_iff.mpr ⟨parity, members[j].sequenceNumber, by rw [hg.fec, hfec]; rfl, ?_, ?_, ?_⟩
  · rw [hg.media_length, hmedia.length_eq, hg.expected, ← hn, List.length_eraseIdx_add_one hj]
  · rw [hg.expected, ← hn]
    refine missingMembers_received h hj fun k => ?_
    simp only [hg.mapGet_eq_none_iff, hmedia.mem_iff]
  · rw [lostPacket, combine_received h hj ((hg.media.map _).trans ?_)]
    rw [List.map_map]
    exact hmedia.map _

end

/-! ## The obligation -/

/-- Settles O39: all arrivals but the last recover nothing (`runCommands_fecProcess_quiet`); with the last the group
holds all but the lost member, and step 3 gives it (`recover_received`). -/
theorem theLostMemberIsRecovered : Obligations.TheLostMemberIsRecovered := by
  intro s gid first members parity j order hj hsender hn hw habs hroom hperm
  have harr := arrivals_received hsender hn hperm
  have hlen := hperm.length_eq
  rw [List.length_cons, List.length_eraseIdx_add_one hj] at hlen
  rcases List.eq_nil_or_concat' order with rfl | ⟨init, last, rfl⟩
  · exact absurd hlen.symm (Nat.ne_of_gt hsender.size.1)
  have hstart : FecHolds s.cfg gid [] s.fec :=
    ⟨hw, hroom.le, fun _ => hroom, by rw [lookupOrCreate_absent habs]; exact freshGroup_holdsArrivals _ _⟩
  obtain ⟨t, outs, hrun, hquiet, hholds, hcfg, hcount⟩ :=
    runCommands_fecProcess_quiet gid init s [] hstart (harr.sublist (List.sublist_append_left _ _)) (by
      rw [List.length_append, List.length_singleton] at hlen; rw [List.nil_append]; omega)
  rw [List.nil_append, hcfg] at hholds
  have hrec := (recoveredBy_eq_recover (harr.group last (by simp)) s.cfg t.fec).trans
    (recover_received hsender hj hn hperm (hholds.groupAfterStore harr))
  refine ⟨_, _, lostPacket gid members[j] parity.payload.length,
    by rw [List.map_append]; exact runCommands_snoc hrun (exec_fecProcess last t), ?_, rfl, rfl, rfl, rfl, ?_⟩
  · rw [recoveredOf_append, hquiet, State.withOut_out, hcfg, hrec]; rfl
  · rw [State.withOut_fec, State.withFec_fec, hcfg, fecStateAfter_recoveredCount_of_some hrec, hcount]

end Sys2Proof.Machine
end

section
/-! PROOFS. The family of 42_reassembler.md, packet by packet: the window (R153, R154), the fragment state machine by
position and bound (R160 to R166), emission (R175, R176), the order of events (60_exceptions.md R231), and the
obligations about one packet. -/

namespace Sys2Proof.Machine

/-! ## The window (42_reassembler.md R153, R154) -/

theorem windowInsert_le {c : Config} {dw : List SeqNum} (h : dw.length + 1 ≤ c.dedupCap) (s : SeqNum) :
    windowInsert c dw s = dw ++ [s] := by
  rw [windowInsert, List.length_append, List.length_singleton, if_neg (Nat.not_lt.mpr h)]

theorem windowInsert_gt {c : Config} {dw : List SeqNum} (h : c.dedupCap < dw.length + 1) (s : SeqNum) :
    windowInsert c dw s = (dw ++ [s]).drop ((dw.length + 1) / 2) := by
  rw [windowInsert, List.length_append, List.length_singleton, if_pos h]

/-! ## The state machine, by position (42_reassembler.md R160 to R166) -/

section
variable {c : Config} {p : Packet} {o : Reassembly} {buf : Bytes}

theorem fragment_single (hs : p.isStart = true) (he : p.isEnd = true) :
    fragment c p o = emit c p.typeOrCount p.payload o := by
  simp only [fragment, hs, he, fragSingle]

theorem fragment_start_le (hs : p.isStart = true) (he : p.isEnd = false) (h : p.payload.length ≤ c.fragBufCap) :
    fragment c p o = o.setFb (mapSet o.rsm.fb p.typeOrCount p.payload) := by
  simp only [fragment, hs, he, fragStart, if_neg (Nat.not_lt.mpr h)]

theorem fragment_start_gt (hs : p.isStart = true) (he : p.isEnd = false) (h : c.fragBufCap < p.payload.length) :
    fragment c p o = overflow p o := by
  simp only [fragment, hs, he, fragStart, if_pos h]

theorem fragment_mid_le (hs : p.isStart = false) (he : p.isEnd = false)
    (hbuf : mapGet o.rsm.fb p.typeOrCount = some buf) (h : buf.length + p.payload.length ≤ c.fragBufCap) :
    fragment c p o = o.setFb (mapSet o.rsm.fb p.typeOrCount (buf ++ p.payload)) := by
  simp only [fragment, hs, he, fragMid, hbuf, if_neg (Nat.not_lt.mpr h)]

theorem fragment_mid_gt (hs : p.isStart = false) (he : p.isEnd = false)
    (hbuf : mapGet o.rsm.fb p.typeOrCount = some buf) (h : c.fragBufCap < buf.length + p.payload.length) :
    fragment c p o = overflow p o := by
  simp only [fragment, hs, he, fragMid, hbuf, if_pos h]

theorem fragment_end_le (hs : p.isStart = false) (he : p.isEnd = true)
    (hbuf : mapGet o.rsm.fb p.typeOrCount = some buf) (h : buf.length + p.payload.length ≤ c.fragBufCap) :
    fragment c p o =
      emit c p.typeOrCount (buf ++ p.payload) (o.setFb (mapDel o.rsm.fb p.typeOrCount)) := by
  simp only [fragment, hs, he, fragEnd, hbuf, if_neg (Nat.not_lt.mpr h)]

theorem fragment_end_gt (hs : p.isStart = false) (he : p.isEnd = true)
    (hbuf : mapGet o.rsm.fb p.typeOrCount = some buf) (h : c.fragBufCap < buf.length + p.payload.length) :
    fragment c p o = overflow p o := by
  simp only [fragment, hs, he, fragEnd, hbuf, if_pos h]

end

/-! ## A packet that passed the dedup check -/

section
variable {s : State} {p : Packet}

/-- RSM.PROCESS on a new media packet, by what the state machine makes of it. -/
theorem exec_rsmProcess_new (hmedia : p.isFec = false) (hnew : p.sequenceNumber ∉ s.rsm.dw) {o : Reassembly}
    (h : fragment s.cfg p (accepted s.cfg p s.rsm) = o) :
    exec (.rsmProcess p) s = .next ((s.withRsm o.rsm).withOut ⟨o.units, o.events, .nothing⟩) := by
  rw [exec_rsmProcess, reassemble_new hmedia hnew, acceptPacket_eq, h]

/-- The buffers the state machine finds are those there were. -/
theorem mapGet_accepted_fb (c : Config) (p : Packet) (r : RsmState) (t : UnitType) :
    mapGet (accepted c p r).rsm.fb t = mapGet r.fb t := by
  rw [accepted_rsm]

/-- RSM.PROCESS on a packet whose number is in the window: counted, dropped. -/
theorem exec_rsmProcess_duplicate (hmedia : p.isFec = false) (hdup : p.sequenceNumber ∈ s.rsm.dw) :
    exec (.rsmProcess p) s = .next
      { s with
        rsm := { s.rsm with packetsDeduplicated := satInc s.cfg s.rsm.packetsDeduplicated }
        out := ⟨[], [], .nothing⟩ } :=
  duplicateIsCountedAndDropped s p hmedia hdup

end

/-! ## Emission (42_reassembler.md R175, R176) -/

/-- The type of a unit is the low five bits of its first byte, if it has one. -/
theorem embeddedType_eq (data : Bytes) (hdr : UnitType) :
    embeddedType data hdr = (data.head?.map (fun b => b.extractLsb' 0 5)).getD hdr := by
  cases data <;> rfl

theorem mismatchWarning_nil (hdr : UnitType) : mismatchWarning [] hdr = none := if_pos rfl

theorem mismatchWarning_same {b : Byte} {hdr : UnitType} (h : b.toNat % 32 = hdr.toNat) (rest : Bytes) :
    mismatchWarning (b :: rest) hdr = none :=
  if_pos (BitVec.eq_of_toNat_eq ((lowFive_toNat b).trans h))

theorem mismatchWarning_differ {b : Byte} {hdr : UnitType} (h : b.toNat % 32 ≠ hdr.toNat) (rest : Bytes) :
    mismatchWarning (b :: rest) hdr = some (.typeMismatch hdr (b.extractLsb' 0 5)) :=
  if_neg fun heq => h ((lowFive_toNat b).symm.trans (congrArg BitVec.toNat heq))

/-- The warnings of a unit: none without a first byte, and with one exactly when its type differs. -/
theorem mismatchWarning_toList (data : Bytes) (hdr : UnitType) :
    (data = [] → (mismatchWarning data hdr).toList = []) ∧
    ∀ b rest, data = b :: rest →
      (b.toNat % 32 = hdr.toNat → (mismatchWarning data hdr).toList = []) ∧
      (b.toNat % 32 ≠ hdr.toNat → (mismatchWarning data hdr).toList = [.typeMismatch hdr (b.extractLsb' 0 5)]) := by
  refine ⟨?_, ?_⟩
  · rintro rfl; rw [mismatchWarning_nil]; rfl
  · rintro b rest rfl
    exact ⟨fun h => by rw [mismatchWarning_same h]; rfl, fun h => by rw [mismatchWarning_differ h]; rfl⟩

/-! ## The order of events (60_exceptions.md R231) -/

/-- The events a fragment of `p` may add after the discontinuity report. -/
def FragmentEvent (p : Packet) (e : Event) : Prop :=
  (∃ pos, e = .orphan p.sequenceNumber p.typeOrCount pos) ∨
    e = .bufOverflow p.sequenceNumber p.typeOrCount ∨ ∃ emb, e = .typeMismatch p.typeOrCount emb

theorem mismatchWarning_fragmentEvent (p : Packet) (data : Bytes) :
    ∀ e ∈ (mismatchWarning data p.typeOrCount).toList, FragmentEvent p e := by
  unfold mismatchWarning
  split
  · intro e he; cases he
  · intro e he
    exact .inr (.inr ⟨_, List.mem_singleton.mp he⟩)

/-- The state machine adds at most one event. -/
theorem fragment_events_le_one (c : Config) (p : Packet) (o : Reassembly) :
    ∃ tail, (fragment c p o).events = o.events ++ tail ∧ tail.length ≤ 1 ∧ ∀ e ∈ tail, FragmentEvent p e := by
  rcases fragment_cases c p o with ⟨d, e⟩ | ⟨d, _, e⟩ | ⟨d, _, e⟩ | e | ⟨pos, e⟩ <;> rw [e]
  · exact ⟨_, emit_events _ _ _ _, Option.length_toList_le, mismatchWarning_fragmentEvent p d⟩
  · exact ⟨_, emit_events _ _ _ _, Option.length_toList_le, mismatchWarning_fragmentEvent p d⟩
  · exact ⟨[], (List.append_nil _).symm, Nat.zero_le _, nofun⟩
  · exact ⟨_, overflow_events _ _, Nat.le_refl _, fun e he => .inr (.inl (List.mem_singleton.mp he))⟩
  · exact ⟨_, Reassembly.raise_events _ _, Nat.le_refl _, fun e he => .inl ⟨pos, List.mem_singleton.mp he⟩⟩

/-! ## The obligations -/

/-- Settles O43, by the window (`windowInsert_le`, `windowInsert_gt`) and the fields of an accepted packet. -/
theorem newNumberEntersTheWindow : Obligations.NewNumberEntersTheWindow := by
  intro s p hmedia hnew
  have hexec := exec_rsmProcess p s
  rw [reassemble_new hmedia hnew] at hexec
  refine ⟨_, hexec, acceptPacket_packetsDeduplicated _ _ _, acceptPacket_lastSeq _ _ _, fun h => ?_, fun h => ?_, ?_⟩
  · exact (acceptPacket_dw _ _ _).trans (windowInsert_le h _)
  · exact (acceptPacket_dw _ _ _).trans (windowInsert_gt h _)
  · exact (acceptPacket_dw _ _ _).symm ▸ mem_windowInsert_self _ _ _

/-- Settles O46: the state machine emits the payload (`fragment_single`); its warning is `mismatchWarning_toList`'s. -/
theorem singleIsEmittedAtOnce : Obligations.SingleIsEmittedAtOnce := by
  intro s p hmedia hs he hnew
  have hexec := exec_rsmProcess_new hmedia hnew (fragment_single hs he)
  rw [emit_rsm, emit_units, emit_events, accepted_rsm, accepted_units, accepted_events, embeddedType_eq] at hexec
  obtain ⟨hempty, hbyte⟩ := mismatchWarning_toList p.payload p.typeOrCount
  exact ⟨_, _, hexec, rfl, hempty, hbyte⟩

/-- Settles O47, by the payload's length against the cap (`fragment_start_le`, `fragment_start_gt`). -/
theorem startReplacesTheBuffer : Obligations.StartReplacesTheBuffer := by
  intro s p hmedia hs he hnew
  rcases Nat.lt_or_ge s.cfg.fragBufCap p.payload.length with hgt | hle
  · refine ⟨_, exec_rsmProcess_new hmedia hnew (fragment_start_gt hs he hgt), ?_, rfl, ?_,
      fun h => absurd hgt (Nat.not_lt.mpr h), fun _ => ⟨?_, ?_⟩⟩
    all_goals simp
  · refine ⟨_, exec_rsmProcess_new hmedia hnew (fragment_start_le hs he hle), ?_, rfl, ?_, fun _ => ⟨?_, ?_⟩,
      fun h => absurd hle (Nat.not_le.mpr h)⟩
    all_goals simp

/-- Settles O48, by the buffer's new length against the cap (`fragment_mid_le`, `fragment_mid_gt`). -/
theorem middleIsAppended : Obligations.MiddleIsAppended := by
  intro s p buf hmedia hs he hnew hbuf
  have hopen := (mapGet_accepted_fb s.cfg p s.rsm p.typeOrCount).trans hbuf
  rcases Nat.lt_or_ge s.cfg.fragBufCap (buf.length + p.payload.length) with hgt | hle
  · refine ⟨_, _, exec_rsmProcess_new hmedia hnew (fragment_mid_gt hs he hopen hgt), ?_, rfl, rfl, ?_,
      fun h => absurd hgt (Nat.not_lt.mpr h), fun _ => ⟨?_, ?_⟩⟩
    all_goals simp
  · refine ⟨_, _, exec_rsmProcess_new hmedia hnew (fragment_mid_le hs he hopen hle), ?_, rfl, rfl, ?_,
      fun _ => ⟨?_, ?_⟩, fun h => absurd hle (Nat.not_le.mpr h)⟩
    all_goals simp

/-- Settles O50, by the unit's length against the cap (`fragment_end_le`, `fragment_end_gt`); the unit's warning is
`mismatchWarning_toList`'s. -/
theorem endEmitsTheBuffer : Obligations.EndEmitsTheBuffer := by
  intro s p buf hmedia hs he hnew hbuf
  have hopen := (mapGet_accepted_fb s.cfg p s.rsm p.typeOrCount).trans hbuf
  obtain ⟨hempty, hbyte⟩ := mismatchWarning_toList (buf ++ p.payload) p.typeOrCount
  rcases Nat.lt_or_ge s.cfg.fragBufCap (buf.length + p.payload.length) with hgt | hle
  · refine ⟨_, _, _, exec_rsmProcess_new hmedia hnew (fragment_end_gt hs he hopen hgt), ?_, rfl, rfl, hempty, hbyte,
      fun h => absurd hgt (Nat.not_lt.mpr h), fun _ => ⟨?_, ?_, ?_⟩⟩
    all_goals simp
  · refine ⟨_, _, _, exec_rsmProcess_new hmedia hnew (fragment_end_le hs he hopen hle), ?_, rfl, rfl, hempty, hbyte,
      fun _ => ⟨?_, ?_, ?_⟩, fun h => absurd hle (Nat.not_le.mpr h)⟩
    all_goals simp [embeddedType_eq]

/-- Settles O51: RSM.PROCESS writes the Reassembler and the ports alone, and no other type's buffer
(`reassemble_other`). -/
theorem otherTypesBuffersAreUntouched : Obligations.OtherTypesBuffersAreUntouched :=
  fun s p => ⟨_, exec_rsmProcess p s, rfl, rfl, rfl, rfl, fun _ hT => reassemble_other s.cfg p s.rsm hT⟩

/-- Settles O52: the first copy leaves its number in the window (`reassemble_mem_dw`), so the second is a duplicate. -/
theorem secondCopyHasNoEffect : Obligations.SecondCopyHasNoEffect :=
  fun s p hmedia =>
    ⟨_, exec_rsmProcess p s, exec_rsmProcess_duplicate hmedia (reassemble_mem_dw hmedia s.cfg s.rsm)⟩

/-- Settles O59: a packet that passed the dedup check reports its discontinuity (`accepted_events`) and then at most one
event of the state machine (`fragment_events_le_one`); any other reports nothing. -/
theorem eventsComeInTheOrderOfTheChecks : Obligations.EventsComeInTheOrderOfTheChecks := by
  intro s p
  rcases reassemble_cases s.cfg p s.rsm with ⟨_, e⟩ | ⟨_, _, e⟩ | ⟨hmedia, hnew, _⟩
  · exact ⟨_, [], [], exec_rsmProcess p s, congrArg Reassembly.events e, Nat.zero_le _, Nat.zero_le _, nofun, nofun,
      fun _ => congrArg Reassembly.events e⟩
  · exact ⟨_, [], [], exec_rsmProcess p s, congrArg Reassembly.events e, Nat.zero_le _, Nat.zero_le _, nofun, nofun,
      fun _ => congrArg Reassembly.events e⟩
  · obtain ⟨tail, hevents, hlen, hkind⟩ := fragment_events_le_one s.cfg p (accepted s.cfg p s.rsm)
    rw [accepted_events] at hevents
    exact ⟨_, _, tail, exec_rsmProcess_new hmedia hnew rfl, hevents, Option.length_toList_le, hlen,
      fun e he => eq_seqGap_of_gapWarning (Option.mem_toList.mp he), hkind, fun h => by simp [hmedia, hnew] at h⟩

end Sys2Proof.Machine
end

section
/-! PROOFS. The family of 43_pipeline.md, class by class (R204 to R208): what RX leaves of the Reassembler, said of what
RSM.PROCESS leaves of the packet itself, and the obligations about the five classes and the late original. -/

namespace Sys2Proof.Machine

/-! ## Units (43_pipeline.md R200, corner cases) -/

/-- Only a SINGLE or END fragment emits. -/
theorem fragment_not_end {p : Packet} (he : p.isEnd = false) (c : Config) (o : Reassembly) :
    (fragment c p o).units = o.units ∧ (fragment c p o).rsm.unitsReassembled = o.rsm.unitsReassembled := by
  cases hs : p.isStart with
  | true =>
    rcases Nat.lt_or_ge c.fragBufCap p.payload.length with hgt | hle
    · rw [fragment_start_gt hs he hgt]; exact ⟨rfl, rfl⟩
    · rw [fragment_start_le hs he hle]; exact ⟨rfl, rfl⟩
  | false =>
    rw [fragment, hs, he]
    exact ⟨fragMid_units c p o, fragMid_unitsReassembled c p o⟩

theorem fragment_units_length (c : Config) (p : Packet) (o : Reassembly) :
    (fragment c p o).units.length ≤ o.units.length + 1 := by
  rcases fragment_cases c p o with ⟨d, e⟩ | ⟨d, _, e⟩ | ⟨d, _, e⟩ | e | ⟨pos, e⟩ <;> rw [e] <;> simp

section
variable {p : Packet} (c : Config) (r : RsmState)

theorem reassemble_units_of_fec (h : p.isFec = true) :
    (reassemble c p r).units = [] ∧ (reassemble c p r).rsm.unitsReassembled = r.unitsReassembled := by
  rw [reassemble_fec h]; exact ⟨rfl, rfl⟩

theorem reassemble_units_of_duplicate (hmedia : p.isFec = false) (hdup : p.sequenceNumber ∈ r.dw) :
    (reassemble c p r).units = [] ∧ (reassemble c p r).rsm.unitsReassembled = r.unitsReassembled := by
  rw [reassemble_duplicate hmedia hdup]; exact ⟨rfl, rfl⟩

theorem reassemble_units_of_not_end (he : p.isEnd = false) :
    (reassemble c p r).units = [] ∧ (reassemble c p r).rsm.unitsReassembled = r.unitsReassembled := by
  rcases reassemble_cases c p r with ⟨_, e⟩ | ⟨_, _, e⟩ | ⟨_, _, e⟩ <;> rw [e]
  · exact ⟨rfl, rfl⟩
  · exact ⟨rfl, rfl⟩
  · have hfrag := fragment_not_end he c (accepted c p r)
    rwa [accepted_units, accepted_rsm] at hfrag

/-- At most one unit, and what a packet that emits one is. -/
theorem reassemble_units (p : Packet) : (reassemble c p r).units.length ≤ 1 ∧
    ((reassemble c p r).units ≠ [] → p.isFec = false ∧ p.isEnd = true ∧ p.sequenceNumber ∉ r.dw) := by
  rcases reassemble_cases c p r with ⟨_, e⟩ | ⟨_, _, e⟩ | ⟨hmedia, hnew, e⟩
  · rw [e]; exact ⟨Nat.zero_le _, absurd rfl⟩
  · rw [e]; exact ⟨Nat.zero_le _, absurd rfl⟩
  · constructor
    · rw [e]
      have hlen := fragment_units_length c p (accepted c p r)
      rwa [accepted_units] at hlen
    · refine fun hne => ⟨hmedia, ?_, hnew⟩
      by_contra hend
      exact hne (reassemble_units_of_not_end c r (Bool.eq_false_iff.mpr hend)).1

/-! ## Buffers -/

theorem reassemble_fb_of_duplicate (hmedia : p.isFec = false) (hdup : p.sequenceNumber ∈ r.dw) :
    (reassemble c p r).rsm.fb = r.fb := by
  rw [reassemble_duplicate hmedia hdup]; rfl

/-- An END or MID packet whose buffer is closed changes no buffer. -/
theorem reassemble_fb_of_closed (hs : p.isStart = false) (hnone : mapGet r.fb p.typeOrCount = none) :
    (reassemble c p r).rsm.fb = r.fb := by
  rcases reassemble_cases c p r with ⟨_, e⟩ | ⟨_, _, e⟩ | ⟨_, _, e⟩ <;> rw [e]
  · rfl
  · rfl
  · rw [acceptPacket_orphan hs hnone, Reassembly.raise_rsm, accepted_rsm]

/-- A SINGLE packet reads and writes no buffer. -/
theorem reassemble_fb_of_single (hs : p.isStart = true) (he : p.isEnd = true) : (reassemble c p r).rsm.fb = r.fb := by
  rcases reassemble_cases c p r with ⟨_, e⟩ | ⟨_, _, e⟩ | ⟨_, _, e⟩ <;> rw [e]
  · rfl
  · rfl
  · rw [acceptPacket_eq, fragment_single hs he, emit_rsm, accepted_rsm]

end

/-! ## RX, said of RSM.PROCESS on the packet itself (43_pipeline.md R202) -/

section
variable {s : State} {p : Packet}

/-- The recovered packet has type 0, so RX leaves any other buffer as RSM.PROCESS on the packet does. -/
theorem routePacket_fb {t : UnitType} (h : t ≠ 0 ∨ (recoveredBy s.cfg s.fec p).toList = []) :
    mapGet (routePacket p s).rsm.fb t = mapGet (reassemble s.cfg p s.rsm).rsm.fb t := by
  cases hrec : recoveredBy s.cfg s.fec p with
  | none => rw [(routePacket_none hrec).1]
  | some q =>
    obtain ⟨_, _, _, htype, _⟩ := recoveredBy_fields hrec
    have ht : t ≠ 0 := h.resolve_right (by simp [hrec])
    rw [(routePacket_some hrec).1, reassemble_other _ _ _ (htype ▸ ht)]

/-- A buffer RSM.PROCESS on the packet leaves closed stays so: it makes an orphan of a recovered packet of its type. -/
theorem routePacket_fb_closed {t : UnitType} (h : mapGet (reassemble s.cfg p s.rsm).rsm.fb t = none) :
    mapGet (routePacket p s).rsm.fb t = none := by
  cases hrec : recoveredBy s.cfg s.fec p with
  | none => rw [(routePacket_none hrec).1]; exact h
  | some q =>
    obtain ⟨_, hs, _, _, _⟩ := recoveredBy_fields hrec
    rw [(routePacket_some hrec).1]
    by_cases ht : t = q.typeOrCount
    · subst ht; rw [reassemble_fb_of_closed _ _ hs h]; exact h
    · rw [reassemble_other _ _ _ ht]; exact h

/-- The last event RSM.PROCESS raises of the packet itself is among the events of RX. -/
theorem mem_routePacket_events {gap : List Event} {e : Event} (h : (reassemble s.cfg p s.rsm).events = gap ++ [e]) :
    e ∈ (routePacket p s).out.events := by
  have hmem : e ∈ (reassemble s.cfg p s.rsm).events := h ▸ List.mem_append_right gap List.mem_cons_self
  cases hrec : recoveredBy s.cfg s.fec p with
  | none => rw [(routePacket_none hrec).2]; exact hmem
  | some q => rw [(routePacket_some hrec).2]; exact List.mem_append_left _ hmem

end

/-! ## The obligations -/

/-- Settles O20: a class is `receive` of its packet, and so is RX of the packet's datagram (`parse_serialize`). -/
theorem eachClassIsRxOfItsDatagram : Obligations.EachClassIsRxOfItsDatagram := by
  intro i p s hi
  rw [exec_of_packetOfClass hi, exec, execRx, parse_serialize, serialize_length]; rfl

/-- Settles O22: the units of RX are the packet's own (`routePacket_units`), at most one (`reassemble_units`). -/
theorem oneDatagramEmitsAtMostOneUnit : Obligations.OneDatagramEmitsAtMostOneUnit := by
  intro i p s hi hlen
  obtain ⟨hle, hwhen⟩ := reassemble_units s.cfg s.rsm p
  rw [← (routePacket_units p s).1] at hle hwhen
  exact ⟨_, exec_class_le hi hlen, hle, hwhen⟩

/-- Settles O23: the Reassembler ignores the FEC packet (`reassemble_fec`), so what it sees is the recovered packet, if
there is one. -/
theorem dgFecFeedsOnlyTheRecoveredPacketOn : Obligations.DgFecFeedsOnlyTheRecoveredPacketOn := by
  intro s seq a e n gid payload hlen
  let p := fecPacket seq a e n gid payload
  obtain ⟨hunits, hcount⟩ := routePacket_units p s
  obtain ⟨hnone, hsame⟩ := reassemble_units_of_fec (p := p) s.cfg s.rsm rfl
  refine ⟨_, _, _, exec_fecProcess p s, rfl, exec_class_le (p := p) rfl hlen, rfl, rfl, rfl, hunits.trans hnone, rfl,
    hcount.trans hsame, ?_⟩
  cases hrec : recoveredBy s.cfg s.fec p with
  | none =>
    obtain ⟨hrsm, hout⟩ := routePacket_none hrec
    rw [reassemble_fec (p := p) rfl] at hrsm hout
    exact .inl ⟨rfl, hrsm, congrArg Output.events hout⟩
  | some q =>
    obtain ⟨hrsm, hout⟩ := routePacket_some hrec
    rw [reassemble_fec (p := p) rfl] at hrsm hout
    exact .inr ⟨q, _, rfl, exec_rsmProcess q s, hrsm, congrArg Output.events hout⟩

/-- Settles O24: RX emits what RSM.PROCESS emits of the packet (`routePacket_units`, `singleIsEmittedAtOnce`), and the
packet itself changes no buffer (`reassemble_fb_of_single`). -/
theorem dgSingleEmitsItsPayload : Obligations.DgSingleEmitsItsPayload := by
  intro s seq type gid payload hlen
  let p := mediaPacket true true seq type gid payload
  obtain ⟨hunits, hcount⟩ := routePacket_units p s
  have hfb := reassemble_fb_of_single (p := p) s.cfg s.rsm rfl rfl
  refine ⟨_, _, _, exec_fecProcess p s, rfl, exec_class_le (p := p) rfl hlen, rfl, rfl, rfl, rfl, fun hnew => ?_,
    fun hdup => ?_, fun T hT => ?_, fun hrec => ?_⟩
  · have hfrag := reassemble_new (p := p) rfl hnew s.cfg
    rw [acceptPacket_eq, fragment_single rfl rfl] at hfrag
    rw [hunits, hcount, hfrag, emit_units, emit_rsm, accepted_units, accepted_rsm, embeddedType_eq]
    exact ⟨rfl, rfl⟩
  · obtain ⟨hnone, hsame⟩ := reassemble_units_of_duplicate (p := p) s.cfg s.rsm rfl hdup
    exact ⟨hunits.trans hnone, hcount.trans hsame⟩
  · rw [routePacket_fb (.inl hT), hfb]
  · rw [(routePacket_none (Option.toList_eq_nil_iff.mp hrec)).1, hfb]

/-- Settles O25: what RSM.PROCESS does of the packet (`startReplacesTheBuffer`), read on the state RX leaves
(`routePacket_fb`, `mem_routePacket_events`). -/
theorem dgStartOpensItsBuffer : Obligations.DgStartOpensItsBuffer := by
  intro s seq type gid payload hlen
  let p := mediaPacket true false seq type gid payload
  obtain ⟨hunits, hcount⟩ := routePacket_units p s
  obtain ⟨hnone, hsame⟩ := reassemble_units_of_not_end (p := p) s.cfg s.rsm rfl
  refine ⟨_, _, _, exec_fecProcess p s, rfl, exec_class_le (p := p) rfl hlen, rfl, rfl, rfl, hunits.trans hnone, rfl,
    hcount.trans hsame, fun T hT h0 => routePacket_other p s hT h0, fun h => ?_⟩
  have hfb := routePacket_fb h
  refine ⟨fun hnew hle => ?_, fun hnew hgt => ?_, fun hdup => ?_⟩
  · obtain ⟨_, hexec, _, _, _, hwithin, _⟩ := startReplacesTheBuffer s p rfl rfl rfl hnew
    obtain rfl := Host.Outcome.next.inj hexec
    exact hfb.trans (hwithin hle).1
  · obtain ⟨_, hexec, _, _, _, _, hover⟩ := startReplacesTheBuffer s p rfl rfl rfl hnew
    obtain rfl := Host.Outcome.next.inj hexec
    obtain ⟨hclosed, hevents⟩ := hover hgt
    exact ⟨hfb.trans hclosed, mem_routePacket_events hevents⟩
  · rw [hfb, reassemble_fb_of_duplicate (p := p) _ _ rfl hdup]

/-- Settles O26: what RSM.PROCESS does of the packet (`middleIsAppended`, `acceptPacket_orphan`), read on the state RX
leaves. -/
theorem dgMidAppendsToItsBuffer : Obligations.DgMidAppendsToItsBuffer := by
  intro s seq type gid payload hlen
  let p := mediaPacket false false seq type gid payload
  obtain ⟨hunits, hcount⟩ := routePacket_units p s
  obtain ⟨hnone, hsame⟩ := reassemble_units_of_not_end (p := p) s.cfg s.rsm rfl
  refine ⟨_, _, _, exec_fecProcess p s, rfl, exec_class_le (p := p) rfl hlen, rfl, rfl, rfl, hunits.trans hnone, rfl,
    hcount.trans hsame, fun T hT h0 => routePacket_other p s hT h0, fun hnew hclosed => ?_, fun h => ?_⟩
  · refine mem_routePacket_events (gap := (accepted s.cfg p s.rsm).events) ?_
    rw [reassemble_new (p := p) rfl hnew, acceptPacket_orphan (p := p) rfl hclosed, Reassembly.raise_events]; rfl
  have hfb := routePacket_fb h
  refine ⟨fun buf hnew hbuf => ⟨fun hle => ?_, fun hgt => ?_⟩, fun hkept => ?_⟩
  · obtain ⟨_, _, hexec, _, _, _, _, hwithin, _⟩ := middleIsAppended s p buf rfl rfl rfl hnew hbuf
    obtain rfl := Host.Outcome.next.inj hexec
    exact hfb.trans (hwithin hle).1
  · obtain ⟨_, _, hexec, _, _, _, _, _, hover⟩ := middleIsAppended s p buf rfl rfl rfl hnew hbuf
    obtain rfl := Host.Outcome.next.inj hexec
    obtain ⟨hclosed, hevents⟩ := hover hgt
    exact ⟨hfb.trans hclosed, mem_routePacket_events hevents⟩
  · rcases hkept with hdup | hclosed
    · rw [hfb, reassemble_fb_of_duplicate (p := p) _ _ rfl hdup]
    · rw [hfb, reassemble_fb_of_closed (p := p) _ _ rfl hclosed]

/-- Settles O27: what RSM.PROCESS does of the packet (`endEmitsTheBuffer`, `acceptPacket_orphan`), read on the state RX
leaves; the buffer it closes stays closed (`routePacket_fb_closed`). -/
theorem dgEndEmitsItsBuffer : Obligations.DgEndEmitsItsBuffer := by
  intro s seq type gid payload hlen
  let p := mediaPacket false true seq type gid payload
  obtain ⟨hunits, hcount⟩ := routePacket_units p s
  refine ⟨_, _, exec_fecProcess p s, exec_class_le (p := p) rfl hlen, rfl, rfl, rfl, rfl,
    fun T hT h0 => routePacket_other p s hT h0, fun buf hnew hbuf => ?_, fun hnew hclosed => ?_, fun hdup => ?_⟩
  · obtain ⟨_, _, _, hexec, hclosed, _, _, _, _, hwithin, hover⟩ := endEmitsTheBuffer s p buf rfl rfl rfl hnew hbuf
    obtain rfl := Host.Outcome.next.inj hexec
    refine ⟨routePacket_fb_closed hclosed, fun hle => ?_, fun hgt => ?_⟩
    · obtain ⟨hunit, _, hinc⟩ := hwithin hle
      exact ⟨hunits.trans hunit, hcount.trans hinc⟩
    · obtain ⟨hnone, hevents, hsame⟩ := hover hgt
      exact ⟨hunits.trans hnone, mem_routePacket_events hevents,
        hcount.trans hsame⟩
  · have horphan : reassemble s.cfg p s.rsm = _ :=
      (reassemble_new (p := p) rfl hnew s.cfg).trans (acceptPacket_orphan (p := p) rfl hclosed s.cfg)
    refine ⟨?_, mem_routePacket_events (congrArg Reassembly.events horphan), ?_⟩
    · rw [hunits, horphan, Reassembly.raise_units, accepted_units]
    · rw [hcount, horphan, Reassembly.raise_rsm, accepted_rsm]
  · obtain ⟨hnone, hsame⟩ := reassemble_units_of_duplicate (p := p) s.cfg s.rsm rfl hdup
    exact ⟨hunits.trans hnone, hcount.trans hsame⟩

/-- Settles O28: the recovered packet's number is in the window RX leaves (`reassemble_mem_dw`), so the original is a
duplicate. -/
theorem recoverySuppressesTheLateOriginal : Obligations.RecoverySuppressesTheLateOriginal := by
  intro s p q original hlen hrec hmedia hseq
  refine ⟨_, exec_rx_some (parse_serialize p) (serialize_length_le hlen), exec_rsmProcess_duplicate hmedia ?_⟩
  rw [hseq, (routePacket_some hrec).1]
  exact reassemble_mem_dw (recoveredBy_fields hrec).1 _ _

end Sys2Proof.Machine
end

section
/-! PROOFS. The fragments of one unit with packets of other types between them (42_reassembler.md section 8): the open
buffer of a type along a run of RSM.PROCESS, and the obligation that follows. -/

namespace Sys2Proof.Machine

/-! ## The bytes of one type among the packets of a run -/

/-- The payloads of type `T`, in order of arrival. -/
def typePayload (T : UnitType) (ps : List Packet) : Bytes :=
  (ps.filter (fun m => m.typeOrCount == T)).flatMap (fun m => m.payload)

theorem typePayload_cons_same {T : UnitType} {p : Packet} (h : p.typeOrCount = T) (ps : List Packet) :
    typePayload T (p :: ps) = p.payload ++ typePayload T ps := by
  simp [typePayload, h]

theorem typePayload_cons_other {T : UnitType} {p : Packet} (h : p.typeOrCount ≠ T) (ps : List Packet) :
    typePayload T (p :: ps) = typePayload T ps := by
  simp [typePayload, h]

/-- Packets that may stand between the START and the END of a unit of type `T`: media, and middle fragments where they
are of the type. -/
def Between (T : UnitType) (p : Packet) : Prop :=
  p.isFec = false ∧ (p.typeOrCount = T → p.isStart = false ∧ p.isEnd = false)

/-! ## One packet between -/

/-- A new MID packet of the type is appended to the open buffer and emits nothing. -/
theorem reassemble_appends {c : Config} {p : Packet} {r : RsmState} {buf : Bytes} (hmedia : p.isFec = false)
    (hs : p.isStart = false) (he : p.isEnd = false) (hnew : p.sequenceNumber ∉ r.dw)
    (hbuf : mapGet r.fb p.typeOrCount = some buf) (hfit : buf.length + p.payload.length ≤ c.fragBufCap) :
    mapGet (reassemble c p r).rsm.fb p.typeOrCount = some (buf ++ p.payload) := by
  have hopen := (mapGet_accepted_fb c p r p.typeOrCount).trans hbuf
  rw [reassemble_new hmedia hnew, acceptPacket_eq, fragment_mid_le hs he hopen hfit, Reassembly.setFb_rsm,
    mapGet_mapSet_same]

/-- A new START packet opens the buffer of its type. -/
theorem reassemble_opens {c : Config} {p : Packet} {r : RsmState} (hmedia : p.isFec = false) (hs : p.isStart = true)
    (he : p.isEnd = false) (hnew : p.sequenceNumber ∉ r.dw) (hfit : p.payload.length ≤ c.fragBufCap) :
    mapGet (reassemble c p r).rsm.fb p.typeOrCount = some p.payload := by
  rw [reassemble_new hmedia hnew, acceptPacket_eq, fragment_start_le hs he hfit, Reassembly.setFb_rsm,
    mapGet_mapSet_same]

/-- RSM.PROCESS adds no number but the packet's own to the window. -/
theorem mem_reassemble_dw {c : Config} {p : Packet} {r : RsmState} {a : SeqNum}
    (h : a ∈ (reassemble c p r).rsm.dw) : a ∈ r.dw ∨ a = p.sequenceNumber := by
  rw [reassemble_dw] at h
  split at h
  · exact .inl h
  · exact mem_windowInsert h

/-- So the numbers that follow stay new. -/
theorem new_after_reassemble {c : Config} {p : Packet} {ps : List Packet} {r : RsmState}
    (hnodup : ((p :: ps).map (fun m => m.sequenceNumber)).Nodup) (hnew : ∀ m ∈ p :: ps, m.sequenceNumber ∉ r.dw) :
    ∀ m ∈ ps, m.sequenceNumber ∉ (reassemble c p r).rsm.dw := by
  obtain ⟨hp, _⟩ := List.nodup_cons.mp hnodup
  intro m hm ha
  rcases mem_reassemble_dw ha with hold | heq
  · exact hnew m (List.mem_cons_of_mem _ hm) hold
  · exact hp (List.mem_map.mpr ⟨m, hm, heq⟩)

/-! ## A run -/

/-- The state RSM.PROCESS leaves. -/
def afterRsm (p : Packet) (s : State) : State :=
  (s.withRsm (reassemble s.cfg p s.rsm).rsm).withOut
    ⟨(reassemble s.cfg p s.rsm).units, (reassemble s.cfg p s.rsm).events, .nothing⟩

theorem exec_rsmProcess_eq_afterRsm (p : Packet) (s : State) : exec (.rsmProcess p) s = .next (afterRsm p s) :=
  exec_rsmProcess p s

/-- What a run of RSM.PROCESS over `ps` leaves, of the buffer of type `T` that held `buf`: the payloads of the type
appended, no unit of a packet of the type, no number in the window but those of the packets. -/
structure Appended (T : UnitType) (s : State) (buf : Bytes) (ps : List Packet) (t : State) (outs : List Output) :
    Prop where
  run : runCommands (ps.map Instr.rsmProcess) s = some (t, outs)
  cfg : t.cfg = s.cfg
  buffer : mapGet t.rsm.fb T = some (buf ++ typePayload T ps)
  window : ∀ a ∈ t.rsm.dw, a ∈ s.rsm.dw ∨ a ∈ ps.map (fun m => m.sequenceNumber)
  outputs : outs.length = ps.length
  quiet : ∀ x ∈ ps.zip outs, x.1.typeOrCount = T → x.2.units = []

theorem appended_nil {T : UnitType} {s : State} {buf : Bytes} (hbuf : mapGet s.rsm.fb T = some buf) :
    Appended T s buf [] s [] :=
  ⟨rfl, rfl, by rw [hbuf, typePayload]; simp, fun _ ha => .inl ha, rfl, nofun⟩

/-- One packet, then a run. -/
theorem Appended.cons {T : UnitType} {s t : State} {buf buf' : Bytes} {p : Packet} {ps : List Packet}
    {outs : List Output} (h : Appended T (afterRsm p s) buf' ps t outs)
    (hbytes : buf ++ typePayload T (p :: ps) = buf' ++ typePayload T ps)
    (hunits : p.typeOrCount = T → (reassemble s.cfg p s.rsm).units = []) :
    Appended T s buf (p :: ps) t ((afterRsm p s).out :: outs) where
  run := runCommands_cons (exec_rsmProcess_eq_afterRsm p s) h.run
  cfg := h.cfg
  buffer := by rw [h.buffer, hbytes]
  window := fun a ha => by
    rcases h.window a ha with ha' | ha'
    · exact (mem_reassemble_dw ha').imp_right (List.mem_cons.mpr ∘ .inl)
    · exact .inr (List.mem_cons_of_mem _ ha')
  outputs := congrArg (· + 1) h.outputs
  quiet := fun x hx => by
    rcases List.mem_cons.mp hx with rfl | hx'
    · exact hunits
    · exact h.quiet x hx'

/-- Packets between, of new and distinct numbers, the whole within the cap. -/
theorem exists_appended (T : UnitType) (ps : List Packet) : ∀ (s : State) (buf : Bytes),
    mapGet s.rsm.fb T = some buf → (∀ m ∈ ps, Between T m) → (ps.map (fun m => m.sequenceNumber)).Nodup →
    (∀ m ∈ ps, m.sequenceNumber ∉ s.rsm.dw) → (buf ++ typePayload T ps).length ≤ s.cfg.fragBufCap →
    ∃ t outs, Appended T s buf ps t outs := by
  induction ps with
  | nil => exact fun s buf hbuf _ _ _ _ => ⟨s, [], appended_nil hbuf⟩
  | cons p ps ih =>
    intro s buf hbuf hbetween hnodup hnew hfit
    obtain ⟨hmedia, htype⟩ := hbetween p List.mem_cons_self
    have hpnew := hnew p List.mem_cons_self
    have hbetween' : ∀ m ∈ ps, Between T m := fun m hm => hbetween m (List.mem_cons_of_mem _ hm)
    have hnodup' := (List.nodup_cons.mp hnodup).2
    have hnew' : ∀ m ∈ ps, m.sequenceNumber ∉ (afterRsm p s).rsm.dw := new_after_reassemble hnodup hnew
    by_cases hT : p.typeOrCount = T
    · obtain ⟨hs, he⟩ := htype hT
      subst hT
      have hbytes : buf ++ typePayload p.typeOrCount (p :: ps) =
          buf ++ p.payload ++ typePayload p.typeOrCount ps := by
        rw [typePayload_cons_same rfl, List.append_assoc]
      rw [hbytes] at hfit
      have hlen : buf.length + p.payload.length ≤ s.cfg.fragBufCap := by
        rw [List.length_append, List.length_append] at hfit; omega
      obtain ⟨t, outs, h⟩ := ih (afterRsm p s) (buf ++ p.payload)
        (reassemble_appends hmedia hs he hpnew hbuf hlen) hbetween' hnodup' hnew' hfit
      exact ⟨t, _, h.cons hbytes fun _ => (reassemble_units_of_not_end _ _ he).1⟩
    · have hbytes : buf ++ typePayload T (p :: ps) = buf ++ typePayload T ps := by rw [typePayload_cons_other hT]
      obtain ⟨t, outs, h⟩ := ih (afterRsm p s) buf ((reassemble_other _ _ _ (Ne.symm hT)).trans hbuf) hbetween'
        hnodup' hnew' (hbytes ▸ hfit)
      exact ⟨t, _, h.cons hbytes fun h => absurd h hT⟩

/-- A START of the type before them. -/
theorem exists_appended_start {s : State} {first : Packet} {ps : List Packet} (hmedia : first.isFec = false)
    (hs : first.isStart = true) (he : first.isEnd = false) (hbetween : ∀ m ∈ ps, Between first.typeOrCount m)
    (hnodup : ((first :: ps).map (fun m => m.sequenceNumber)).Nodup)
    (hnew : ∀ m ∈ first :: ps, m.sequenceNumber ∉ s.rsm.dw)
    (hfit : (first.payload ++ typePayload first.typeOrCount ps).length ≤ s.cfg.fragBufCap) :
    ∃ t outs, Appended first.typeOrCount s [] (first :: ps) t outs := by
  have hlen : first.payload.length ≤ s.cfg.fragBufCap := by rw [List.length_append] at hfit; omega
  obtain ⟨t, outs, h⟩ := exists_appended first.typeOrCount ps (afterRsm first s) first.payload
    (reassemble_opens hmedia hs he (hnew first List.mem_cons_self) hlen) hbetween (List.nodup_cons.mp hnodup).2
    (new_after_reassemble hnodup hnew) hfit
  exact ⟨t, _, h.cons (typePayload_cons_same rfl ps) fun _ => (reassemble_units_of_not_end _ _ he).1⟩

theorem Appended.unitsOf_eq_nil {T : UnitType} {s t : State} {buf : Bytes} {ps : List Packet} {outs : List Output}
    (h : Appended T s buf ps t outs) (hall : ∀ m ∈ ps, m.typeOrCount = T) : unitsOf outs = [] := by
  rw [unitsOf, List.flatMap_eq_nil_iff, ← List.map_snd_zip h.outputs.le]
  intro o ho
  obtain ⟨x, hx, rfl⟩ := List.mem_map.mp ho
  exact h.quiet x hx (hall _ (List.of_mem_zip hx).1)

/-! ## The obligation -/

/-- Settles O53: the START opens the buffer and the packets between append to it (`exists_appended_start`), and the END
emits it (`endEmitsTheBuffer`). -/
theorem fragmentedUnitRoundTrip : Obligations.FragmentedUnitRoundTrip := by
  rintro s T first last between hfmedia hfs hfe rfl hlmedia hls hle hlT hbetween hnodup hnew data hdata hcap
  have hbytes : data = [] ++ typePayload first.typeOrCount (first :: between) ++ last.payload := by
    rw [typePayload_cons_same rfl]; exact hdata
  have hfit := hcap
  rw [hbytes, List.length_append] at hfit
  have hshort : (first.payload ++ typePayload first.typeOrCount between).length ≤ s.cfg.fragBufCap := by
    rw [← typePayload_cons_same rfl]; exact (Nat.le_add_right _ _).trans hfit
  rw [← List.cons_append, List.map_append, List.nodup_append] at hnodup
  obtain ⟨hrun, _, hne⟩ := hnodup
  obtain ⟨t, outs, h⟩ := exists_appended_start hfmedia hfs hfe hbetween hrun
    (fun m hm => hnew m (List.mem_append_left [last] hm)) hshort
  have hlast : last.sequenceNumber ∉ t.rsm.dw := fun ha => by
    rcases h.window _ ha with hold | hseen
    · exact hnew last (by simp) hold
    · exact hne _ hseen _ (by simp) rfl
  have hopen : mapGet t.rsm.fb last.typeOrCount = some ([] ++ typePayload first.typeOrCount (first :: between)) := by
    rw [hlT]; exact h.buffer
  obtain ⟨u, _, _, hexec, hclosed, _, _, _, _, hwithin, _⟩ := endEmitsTheBuffer t last _ hlmedia hls hle hlast hopen
  obtain ⟨hunit, _, _⟩ := hwithin (h.cfg ▸ hfit)
  rw [← hbytes, hlT] at hunit
  refine ⟨t, outs, u, h.run, hexec, hunit, hlT ▸ hclosed, h.outputs, h.quiet, fun hall => h.unitsOf_eq_nil ?_⟩
  intro m hm
  rcases List.mem_cons.mp hm with rfl | hm'
  · rfl
  · exact hall m hm'

end Sys2Proof.Machine
end
